-- ==== Sys2Proof/Word.lean ====
section
/-!
DEFINITION. The word types of the SXC block: every element a sequence carries is one byte (R11, R45), and a byte
of the packed payload has seven free bits (R65, R66). There is no wider quantity (R42).
-/
namespace Sys2Proof

/-- A byte: an unsigned integer in 0..255, bit 0 the least significant (R11). -/
abbrev Byte := BitVec 8

/-- The seven free bits of a payload byte, whose bit 7 is clear (R60, R65, R66). -/
abbrev Septet := BitVec 7

end Sys2Proof
end

