-- ==== Sys2Proof/Machine/Bits.lean ====
section
/-!
DEFINITION. The bit fields and lengths that the rules name: bit 7 of a byte (R11), the seven low bits of a payload
byte (R66), the groups and the packed length (R12, R90).
-/
namespace Sys2Proof

/-- `b[7]`, the most significant bit (R11). -/
def bit7 (b : Byte) : Bool := b.getLsbD 7

/-- `b[0]`, the bit read of the `enabled` and direction operands (R77). -/
def bit0 (b : Byte) : Bool := b.getLsbD 0

/-- The payload byte `0ddddddd` (R65, R66). -/
def septetByte (x : Septet) : Byte := x.setWidth 8

/-- Bits 6..0 of a byte (R66). -/
def lowSeptet (b : Byte) : Septet := b.setWidth 7

/-- `b & 0x7F` (R98). -/
def lowBits (b : Byte) : Byte := b &&& 0x7F#8

/-- `(b >> k) & 0x1`, 0 or 1 (R98). -/
def bitAt (b : Byte) (k : Nat) : Byte := (b >>> k) &&& 0x01#8

/-- A sequence is 7-bit-safe when every byte has bit 7 clear (glossary of spec/00_scope.md). -/
def sevenBitSafe (s : List Byte) : Bool := s.all fun b => !bit7 b

/-- `ceil7(N) = (N + 6) div 7`, the number of groups (R12, R90). -/
def ceil7 (n : Nat) : Nat := (n + 6) / 7

/-- `plen(N) = N + ceil7(N)`, the packed length (R12, R90). -/
def plen (n : Nat) : Nat := n + ceil7 n

/-- The bit of its group's carry byte that the byte at position `k` of the group puts its bit 7 into (R43, R90).
The one place the carry bit order stands (R99, U2; log entry 14). -/
def carrySlot (k : Nat) : Nat := 6 - k

end Sys2Proof
end

