-- ==== Sys2Proof/Config.lean ====
section
/-!
DEFINITION. The parameters of R10, constants of an instance of the block (R28). `NUM_TABLES` is 1 (R20) and
`PORT_PROTOCOL` has no architectural effect (R30), so neither is a field.
-/
namespace Sys2Proof

/-- The parameters the model takes as arguments (R10). -/
structure Params where
  /-- `MFG_ID`, frame index 1 of what `BUILD_REQUEST` builds. -/
  mfgId : Byte
  /-- `MODEL_ID`, frame index 2 of what `BUILD_REQUEST` builds. -/
  modelId : Byte
  /-- `CAP`, the capacity of `IN` and of `OUT` in bytes (R31). -/
  cap : Nat
  /-- `STRICT_CARRY`: whether decoding rejects a packet with a 1 in an unused carry slot (R73). -/
  strictCarry : Bool
  /-- `RESP_RULE`: which payload lengths pass as responses to `PING`, `WRITE_CONFIG`, `CHANGE_DEVICE_ID` (R156). -/
  respRule : Byte → Nat → Bool

/-- The value of `MFG_ID`: open, any byte (R10, D18, U12). It has no body, so no proof can see which (log entry 8). -/
opaque Config.mfgId : Byte

/-- The value of `MODEL_ID`: open, any byte (R10, D18, U12). It has no body, so no proof can see which (log entry 8). -/
opaque Config.modelId : Byte

/-- The parameters of the machine that `exec` runs: the defaults of R10 (log entries 9, 10, 11). -/
def Config.params : Params where
  mfgId := Config.mfgId
  modelId := Config.modelId
  cap := 26
  strictCarry := false
  respRule := fun _ _ => true

end Sys2Proof
end

