-- ==== Sys2Proof/Record.lean ====
section
/-!
DEFINITION. What the host hands to the block: the request record of R30, and the two other things the rows of
spec/opcode_table.json describe, a frame as it comes from the transport (R60, R201) and a byte of a packed
sequence (R65, R66).
-/
namespace Sys2Proof

/-- The three formats of spec/opcode_table.json. -/
inductive Format where
  | blockRequest
  | sysexFrame
  | payloadByte
deriving DecidableEq, Repr

/-- The direction operand of `P_CHECK` (R156): request is host to device, response is device to host. -/
inductive Direction where
  | request
  | response
deriving DecidableEq, Repr

/-- The request record of R30. `IN_LEN` is the length of `inp`; `opsel` is the selector of R75. -/
structure Request where
  opsel : BitVec 4
  a : Byte
  b : Byte
  c : Byte
  d : Byte
  inp : List Byte
deriving DecidableEq, Repr

/-- One transaction as the host presents it. DESIGN CHOICE, safe (log entries 4 and 5): besides the record of R30,
the host may hand over a frame or a packet as such; what the block does with them is what it does with
the record that carries them (`F_PARSE`, `PARSE_RESPONSE`, `DECODE`). -/
inductive Presented where
  /-- A request record (R30). -/
  | request (r : Request)
  /-- A byte sequence that the transport delivered as one frame (R74, R201). -/
  | frame (bytes : List Byte)
  /-- A packed sequence handed over to be decoded into `n` bytes, its byte at index `idx` singled out (R63). -/
  | packed (n : Byte) (packet : List Byte) (idx : Nat)
deriving DecidableEq, Repr

end Sys2Proof
end

