-- ==== Sys2Proof/Machine/State.lean ====
section
/-!
DEFINITION. The state. The block's own state is the grid, alone (R20, R24). Round it stand the host's side of the
interface, what it has still to present, and the record of the run: the responses (R233) and the fault mark that
a `ContractViolation` leaves (R195, U3). No operation reads the record.
-/
namespace Sys2Proof.Machine

/-- The routing grid: 8 outputs by 17 destinations of bools (R20). -/
abbrev Grid := Vector (Vector Bool 17) 8

/-- The errors an operation can return: the source's four (R190 to R194) and `ContractViolation` (R195). -/
inductive Err where
  | invalidIndex
  | malformedPacket
  | frameError
  | unknownCommand
  | contractViolation
deriving DecidableEq, Repr

/-- The result code `ERR` of a response (R196). The codes 6 and 7 are never produced and do not exist here (U7). -/
inductive ErrCode where
  | ok
  | error (e : Err)
deriving DecidableEq, Repr

/-- The response record of R30. `OUT_LEN` is the length of `out`. -/
structure Response where
  err : ErrCode
  r0 : Byte
  r1 : Byte
  r2 : Byte
  r3 : Byte
  out : List Byte
deriving DecidableEq, Repr

/-- What the host does next: present a transaction (R30), or assert the reset input (R222). -/
inductive HostEvent where
  | present (p : Presented)
  | reset
deriving DecidableEq, Repr

/-- The machine. -/
structure State where
  /-- `G[o][d]`, the block's only state (R20, R24). -/
  grid : Grid
  /-- The host's side: what it has still to present, in order (R49, R233; log entry 1). -/
  inputs : List HostEvent
  /-- The run's record: the responses given so far, oldest first (R233; log entry 2). -/
  responses : List Response
  /-- The run's record: a `ContractViolation` has been answered; no transaction clears it (R195, U3; log entry 3). -/
  violated : Bool
deriving DecidableEq, Repr

/-- The empty grid: every cell false (R220). -/
def Grid.empty : Grid := Vector.replicate 8 (Vector.replicate 17 false)

/-- The machine right after reset: the grid empty (R220), nothing presented yet, nothing answered yet (R221). -/
def State.reset : State where
  grid := Grid.empty
  inputs := []
  responses := []
  violated := false

/-- A step of the block never faults: every request has exactly one response and one next grid (R206, U13), so
this type has no constructor. The fault that U3 asks for is the mark `State.violated`. -/
inductive Fault where
deriving DecidableEq, Repr

/-- Why a step may have no meaning. -/
inductive Refusal where
  /-- Raised by `exec` alone, for an instruction without a meaning; safe. No arm raises it. -/
  | notModelled (mnemonic : String)
deriving DecidableEq, Repr

end Sys2Proof.Machine
end

