-- ==== Sys2Proof/Machine/Operands.lean ====
section
/-!
DEFINITION. The operand forms: an output and a destination index with their ranges (R191), the capacity of `IN`
and of `OUT` (R31), a command byte of the codeset (R69).
-/
namespace Sys2Proof.Machine

/-- An `output` operand: 0..7, else none (R111, R191). -/
def outputIndex (b : Byte) : Option (Fin 8) := if h : b.toNat < 8 then some ⟨b.toNat, h⟩ else none

/-- A `destination` operand: 0..16, else none (R111, R191). -/
def destinationIndex (b : Byte) : Option (Fin 17) :=
  if h : b.toNat < 17 then some ⟨b.toNat, h⟩ else none

/-- The capacity test of every operation that reads `IN`, and of a result sequence of a given length (R31). -/
def overCapacity (P : Params) (len : Nat) : Bool := P.cap < len

/-- Whether a command byte is one of the four of the closed enumeration (R69, R70). -/
def isCommand (c : Byte) : Bool := c = 0x01 || c = 0x02 || c = 0x03 || c = 0x04

end Sys2Proof.Machine
end

