-- ==== Sys2Proof/Syntax.lean ====
section
/-!
DEFINITION. The operations of the block, one constructor per row of spec/opcode_table.json, each holding exactly
the fields its operation reads (R76) or its format has (R60, R65, R66).
-/
namespace Sys2Proof

/-- One row of spec/opcode_table.json with its operands. -/
inductive Instr where
  /-- `RESERVED_0`, `OPSEL = 0x0` (R77). -/
  | reserved0
  /-- `ENCODE`, `OPSEL = 0x1` (R91): the source bytes. -/
  | encode (src : List Byte)
  /-- `DECODE`, `OPSEL = 0x2` (R95): the number of source bytes and the packed bytes. -/
  | decode (n : Byte) (packet : List Byte)
  /-- `T_CLEAR`, `OPSEL = 0x3` (R110). -/
  | tClear
  /-- `T_SET`, `OPSEL = 0x4` (R111); `enabled` is `C[0]`. -/
  | tSet (output destination : Byte) (enabled : Bool)
  /-- `T_SET_ROW`, `OPSEL = 0x5` (R112); `enabled` is `C[0]`. -/
  | tSetRow (output : Byte) (enabled : Bool)
  /-- `T_MASK`, `OPSEL = 0x6` (R113). -/
  | tMask (destination : Byte)
  /-- `T_TO_MASKS`, `OPSEL = 0x7` (R114). -/
  | tToMasks
  /-- `T_FROM_MASKS`, `OPSEL = 0x8` (R115): the masks. -/
  | tFromMasks (masks : List Byte)
  /-- `F_BUILD`, `OPSEL = 0x9` (R131). -/
  | fBuild (manufacturerId modelId deviceId command : Byte) (payload : List Byte)
  /-- `F_PARSE`, `OPSEL = 0xA` (R134): the frame. -/
  | fParse (frame : List Byte)
  /-- `P_CHECK`, `OPSEL = 0xB` (R156); the direction is `C[0]`. -/
  | pCheck (command payloadLength : Byte) (dir : Direction)
  /-- `ENCODE_TABLE`, `OPSEL = 0xC` (R171). -/
  | encodeTable
  /-- `DECODE_TABLE`, `OPSEL = 0xD` (R172): the packed payload. -/
  | decodeTable (payload : List Byte)
  /-- `BUILD_REQUEST`, `OPSEL = 0xE` (R173). -/
  | buildRequest (command deviceId : Byte) (payload : List Byte)
  /-- `PARSE_RESPONSE`, `OPSEL = 0xF` (R174): the frame. -/
  | parseResponse (frame : List Byte)
  /-- `PING.request` (R151): `F0 m o d 01 F7`. -/
  | pingRequest (manufacturerId modelId deviceId : Byte)
  /-- `READ_CONFIG.request` (R152): `F0 m o d 02 F7`. -/
  | readConfigRequest (manufacturerId modelId deviceId : Byte)
  /-- `READ_CONFIG.response` (R152, R155): `F0 m o d 02`, 20 payload bytes, `F7`. -/
  | readConfigResponse (manufacturerId modelId deviceId : Byte) (payload : List Septet)
  /-- `WRITE_CONFIG.request` (R153): `F0 m o d 03`, 20 payload bytes, `F7`. -/
  | writeConfigRequest (manufacturerId modelId deviceId : Byte) (payload : List Septet)
  /-- `CHANGE_DEVICE_ID.request` (R154): `F0 m o d 04 n F7`. -/
  | changeDeviceIdRequest (manufacturerId modelId deviceId : Byte) (newId : Septet)
  /-- `FRAME.generic` (R60): `F0 m o d c`, any payload bytes with bit 7 clear, `F7`. -/
  | frameGeneric (manufacturerId modelId deviceId command : Byte) (payload : List Septet)
  /-- `PACKED.carry_byte` (R65): the carry byte at packed index `before.length`, its slots `a` (bit 6) to
  `g` (bit 0), in the packet `before`, it, `after` that is to be decoded into `n` bytes. -/
  | packedCarryByte (n : Byte) (before : List Byte) (slots : Septet) (after : List Byte)
  /-- `PACKED.data_byte` (R66): the data byte at packed index `before.length`, its bits 6..0 `low`, in the packet
  `before`, it, `after` that is to be decoded into `n` bytes. -/
  | packedDataByte (n : Byte) (before : List Byte) (low : Septet) (after : List Byte)
deriving DecidableEq, Repr

end Sys2Proof
end

