-- ==== Sys2Proof/WellFormed.lean ====
section
/-!
DEFINITION. Which instructions the encodings of spec/30_encoding.md admit: an `IN` that the 5-bit `IN_LEN` can
count (R30), the payload lengths of the protocol's frames (R62), a generic frame that is none of those, and the
packed position of a carry byte and of a data byte (R63, R65, R66).
-/
namespace Sys2Proof

/-- `IN_LEN` is 5 bits wide at `CAP = 26` (R30). -/
def fitsInLen (n : Nat) : Bool := n < 32

/-- Whether a command byte and a payload length are those of a row of R62. -/
def isProtocolFrame (command : Byte) (len : Nat) : Bool :=
  (command = 0x01 && len = 0) || (command = 0x02 && (len = 0 || len = 20)) ||
    (command = 0x03 && len = 20) || (command = 0x04 && len = 1)

/-- The instructions that an encoding of spec/30_encoding.md stands for. -/
def Instr.wellFormed : Instr → Bool
  | .reserved0 => true
  | .encode src => fitsInLen src.length
  | .decode _ packet => fitsInLen packet.length
  | .tClear => true
  | .tSet _ _ _ => true
  | .tSetRow _ _ => true
  | .tMask _ => true
  | .tToMasks => true
  | .tFromMasks masks => fitsInLen masks.length
  | .fBuild _ _ _ _ payload => fitsInLen payload.length
  | .fParse frame => fitsInLen frame.length
  | .pCheck _ _ _ => true
  | .encodeTable => true
  | .decodeTable payload => fitsInLen payload.length
  | .buildRequest _ _ payload => fitsInLen payload.length
  | .parseResponse frame => fitsInLen frame.length
  | .pingRequest _ _ _ => true
  | .readConfigRequest _ _ _ => true
  | .readConfigResponse _ _ _ payload => payload.length = 20
  | .writeConfigRequest _ _ _ payload => payload.length = 20
  | .changeDeviceIdRequest _ _ _ _ => true
  | .frameGeneric _ _ _ command payload =>
    fitsInLen (payload.length + 6) && !isProtocolFrame command payload.length
  | .packedCarryByte _ before _ after =>
    before.length % 8 = 0 && fitsInLen (before.length + 1 + after.length)
  | .packedDataByte _ before _ after =>
    before.length % 8 ≠ 0 && fitsInLen (before.length + 1 + after.length)

end Sys2Proof
end

