-- ==== Sys2Proof/Decode.lean ====
section
/-!
DEFINITION. Decoding what the host presents into an instruction, and the encoder. Two layers: a presented
transaction to an instruction (R75, R76, R62, R63; total, nothing rejected), and the byte form of a presented
transaction (DESIGN CHOICE, log entry 6: `PORT_PROTOCOL` is open), total on any bytes and rejecting by name.
-/
namespace Sys2Proof

/-- The direction operand (R156): `C[0]` = 0 is a request, 1 a response. -/
def directionOf (c : Byte) : Direction := if bit0 c then .response else .request

/-- A request record's operation and operands, by `OPSEL` (R75) and the operand use table (R76). All 16
selectors are assigned, and the last arm is that of 0xF, the only one left of four bits. -/
def Request.instr (r : Request) : Instr :=
  match r.opsel.toNat with
  | 0x0 => .reserved0
  | 0x1 => .encode r.inp
  | 0x2 => .decode r.a r.inp
  | 0x3 => .tClear
  | 0x4 => .tSet r.a r.b (bit0 r.c)
  | 0x5 => .tSetRow r.a (bit0 r.c)
  | 0x6 => .tMask r.b
  | 0x7 => .tToMasks
  | 0x8 => .tFromMasks r.inp
  | 0x9 => .fBuild r.a r.b r.c r.d r.inp
  | 0xA => .fParse r.inp
  | 0xB => .pCheck r.a r.b (directionOf r.c)
  | 0xC => .encodeTable
  | 0xD => .decodeTable r.inp
  | 0xE => .buildRequest r.a r.b r.inp
  | _ => .parseResponse r.inp

/-- The fields of a frame read by its positions (R60): the four header bytes and the payload's low bits; none
where the bytes are no frame. -/
def splitFrame : List Byte → Option (Byte × Byte × Byte × Byte × List Septet)
  | sox :: m :: o :: d :: c :: rest =>
    if sox = 0xF0 ∧ rest.getLast? = some 0xF7 ∧ sevenBitSafe rest.dropLast then
      some (m, o, d, c, rest.dropLast.map lowSeptet)
    else none
  | _ => none

/-- The row of the frame with these fields (R62, R69): a row of the protocol, or the generic frame. -/
def frameRow (m o d c : Byte) (p : List Septet) : Instr :=
  if c = 0x01 ∧ p.length = 0 then .pingRequest m o d
  else if c = 0x02 ∧ p.length = 0 then .readConfigRequest m o d
  else if c = 0x02 ∧ p.length = 20 then .readConfigResponse m o d p
  else if c = 0x03 ∧ p.length = 20 then .writeConfigRequest m o d p
  else if c = 0x04 then
    match p with
    | [x] => .changeDeviceIdRequest m o d x
    | _ => .frameGeneric m o d c p
  else .frameGeneric m o d c p

/-- A sequence handed over as a frame. Bytes that are no frame are a plain `F_PARSE`, whose tests answer
`FrameError` (R134). -/
def frameInstr (bytes : List Byte) : Instr :=
  match splitFrame bytes with
  | some (m, o, d, c, p) => frameRow m o d c p
  | none => .fParse bytes

/-- A packet handed over with the byte at `idx` singled out: a carry byte at packed indices `8g`, a data byte
elsewhere (R63). A byte with bit 7 set is neither, and the packet is a plain `DECODE`, whose tests answer (R95). -/
def packedInstr (n : Byte) (packet : List Byte) (idx : Nat) : Instr :=
  match packet[idx]? with
  | none => .decode n packet
  | some b =>
    if bit7 b then .decode n packet
    else if idx % 8 = 0 then
      .packedCarryByte n (packet.take idx) (lowSeptet b) (packet.drop (idx + 1))
    else .packedDataByte n (packet.take idx) (lowSeptet b) (packet.drop (idx + 1))

/-- The instruction a presented transaction is. -/
def Presented.instr : Presented → Instr
  | .request r => r.instr
  | .frame bytes => frameInstr bytes
  | .packed n packet idx => packedInstr n packet idx

/-- Why bytes are no presented transaction. -/
inductive DecodeError where
  /-- Fewer bytes than the fixed fields of the format need. -/
  | truncated
  /-- The selector byte has a 1 above the four bits of `OPSEL` (R30). -/
  | selectorTooWide
  /-- The `IN_LEN` byte has a 1 above the five bits of `IN_LEN` (R30). -/
  | inLenTooWide
  /-- The number of `IN` bytes is not `IN_LEN`. -/
  | inLenMismatch
  /-- The packed index singled out lies beyond the packet. -/
  | cursorOutside
deriving DecidableEq, Repr

/-- The byte form of a presented transaction, read (log entry 6): a request is selector, `A`, `B`, `C`, `D`,
`IN_LEN`, `IN`; a frame is its own bytes; a packed byte is the byte, `n`, its index, the packet's other bytes. -/
def Presented.ofBytes : Format → List Byte → Except DecodeError Presented
  | .blockRequest, sel :: a :: b :: c :: d :: len :: inp =>
    if 16 ≤ sel.toNat then .error .selectorTooWide
    else if 32 ≤ len.toNat then .error .inLenTooWide
    else if inp.length ≠ len.toNat then .error .inLenMismatch
    else .ok (.request { opsel := sel.setWidth 4, a := a, b := b, c := c, d := d, inp := inp })
  | .blockRequest, _ => .error .truncated
  | .sysexFrame, bytes => .ok (.frame bytes)
  | .payloadByte, x :: n :: idx :: rest =>
    if rest.length < idx.toNat then .error .cursorOutside
    else .ok (.packed n (rest.take idx.toNat ++ x :: rest.drop idx.toNat) idx.toNat)
  | .payloadByte, _ => .error .truncated

/-- Decoding bytes of a format to an instruction. -/
def decode (f : Format) (bytes : List Byte) : Except DecodeError Instr :=
  (Presented.ofBytes f bytes).map Presented.instr

/-! ### The encoder -/

/-- The record of an operation: the operands it reads in their fields (R76), 0 elsewhere. -/
def requestOf (opsel : BitVec 4) (a b c d : Byte) (inp : List Byte) : Presented :=
  .request { opsel := opsel, a := a, b := b, c := c, d := d, inp := inp }

/-- A bool stored in bit 0 (R11). -/
def boolByte (v : Bool) : Byte := if v then 1 else 0

/-- The frame with these fields (R60). -/
def frameOf (m o d c : Byte) (p : List Septet) : Presented :=
  .frame (0xF0 :: m :: o :: d :: c :: (p.map septetByte ++ [0xF7]))

/-- The presented transaction of an instruction (R75, R76, R60, R63). -/
def Instr.present : Instr → Presented
  | .reserved0 => requestOf 0x0 0 0 0 0 []
  | .encode src => requestOf 0x1 0 0 0 0 src
  | .decode n packet => requestOf 0x2 n 0 0 0 packet
  | .tClear => requestOf 0x3 0 0 0 0 []
  | .tSet o d v => requestOf 0x4 o d (boolByte v) 0 []
  | .tSetRow o v => requestOf 0x5 o 0 (boolByte v) 0 []
  | .tMask d => requestOf 0x6 0 d 0 0 []
  | .tToMasks => requestOf 0x7 0 0 0 0 []
  | .tFromMasks masks => requestOf 0x8 0 0 0 0 masks
  | .fBuild m o d c payload => requestOf 0x9 m o d c payload
  | .fParse frame => requestOf 0xA 0 0 0 0 frame
  | .pCheck c len dir => requestOf 0xB c len (boolByte (dir = .response)) 0 []
  | .encodeTable => requestOf 0xC 0 0 0 0 []
  | .decodeTable payload => requestOf 0xD 0 0 0 0 payload
  | .buildRequest c d payload => requestOf 0xE c d 0 0 payload
  | .parseResponse frame => requestOf 0xF 0 0 0 0 frame
  | .pingRequest m o d => frameOf m o d 0x01 []
  | .readConfigRequest m o d => frameOf m o d 0x02 []
  | .readConfigResponse m o d p => frameOf m o d 0x02 p
  | .writeConfigRequest m o d p => frameOf m o d 0x03 p
  | .changeDeviceIdRequest m o d x => frameOf m o d 0x04 [x]
  | .frameGeneric m o d c p => frameOf m o d c p
  | .packedCarryByte n before slots after =>
    .packed n (before ++ septetByte slots :: after) before.length
  | .packedDataByte n before low after =>
    .packed n (before ++ septetByte low :: after) before.length

/-- The byte form of a presented transaction, written (log entry 6). -/
def Presented.toBytes : Presented → Format × List Byte
  | .request r =>
    (.blockRequest,
      r.opsel.setWidth 8 :: r.a :: r.b :: r.c :: r.d :: BitVec.ofNat 8 r.inp.length :: r.inp)
  | .frame bytes => (.sysexFrame, bytes)
  | .packed n packet idx =>
    (.payloadByte,
      packet.getD idx 0 :: n :: BitVec.ofNat 8 idx :: (packet.take idx ++ packet.drop (idx + 1)))

/-- The format and the bytes of an instruction. -/
def encode (i : Instr) : Format × List Byte := i.present.toBytes

/-! ### The opcode table's words -/

/-- The bytes of a table word, the least significant first. -/
def wordBytes (nbits w : Nat) : List Byte :=
  (List.range ((nbits + 7) / 8)).map fun i => BitVec.ofNat 8 (w >>> (8 * i))

/-- Zeros up to a length: the bits an instruction has above its table word. -/
def padTo (n : Nat) (bytes : List Byte) : List Byte :=
  bytes ++ List.replicate (n - bytes.length) 0

/-- The transaction a table word stands for (log entry 7). A first byte `F0` with at least five more is a frame;
a first byte below 16 is a selector; any other single byte with bit 7 clear is a packed byte at packed index 0. -/
def presentedOfTableWord (nbits w : Nat) : Option Presented :=
  match wordBytes nbits w with
  | [] => none
  | x :: rest =>
    if x = 0xF0 ∧ 5 ≤ rest.length then (Presented.ofBytes .sysexFrame (x :: rest)).toOption
    else if x.toNat < 16 then
      (Presented.ofBytes .blockRequest (padTo (6 + (rest.getD 4 0).toNat) (x :: rest))).toOption
    else if rest = [] ∧ !bit7 x then (Presented.ofBytes .payloadByte (padTo 3 [x])).toOption
    else none

/-- The instruction of a table word. -/
def decodeTableWord (nbits w : Nat) : Option Instr :=
  (presentedOfTableWord nbits w).map Presented.instr

end Sys2Proof
end

