-- ==== Sys2Proof/Machine/Flags.lean ====
section
/-!
DEFINITION. The block has no flag (R27); what stands in the place of condition codes is the result code `ERR` of
each response. This file gives its 3-bit values (R196) and the response records that carry it (R197).
-/
namespace Sys2Proof.Machine

/-- The 3-bit value of a result code (R196). -/
def ErrCode.bits : ErrCode → BitVec 3
  | .ok => 0
  | .error .invalidIndex => 1
  | .error .malformedPacket => 2
  | .error .frameError => 3
  | .error .unknownCommand => 4
  | .error .contractViolation => 5

/-- What an operation that succeeds answers with: its result bytes and its result sequence; a field it does not
write is 0 and its sequence is empty (R30). -/
structure Reply where
  r0 : Byte := 0
  r1 : Byte := 0
  r2 : Byte := 0
  r3 : Byte := 0
  out : List Byte := []
deriving DecidableEq, Repr

/-- The response of an operation that succeeds. -/
def Response.ok (r : Reply) : Response where
  err := .ok
  r0 := r.r0
  r1 := r.r1
  r2 := r.r2
  r3 := r.r3
  out := r.out

/-- The response of an operation that returns an error: the code, and nothing else (R197). -/
def Response.error (e : Err) : Response where
  err := .error e
  r0 := 0
  r1 := 0
  r2 := 0
  r3 := 0
  out := []

/-- Whether a response carries `ContractViolation` (R195). -/
def Response.isViolation (r : Response) : Bool := r.err = .error .contractViolation

end Sys2Proof.Machine
end

