-- ==== Sys2Proof/Machine/Ops.lean ====
section
/-!
DEFINITION. The named operations over the state: reading and writing the grid (R20 to R23), answering a request,
the error return (R197, the block's only exception entry; there is no return from it, R200), the reset input
(R222), and taking the next thing the host presents.
-/
namespace Sys2Proof.Machine

/-! ### The grid -/

/-- `G[o][d]` (R20). -/
def Grid.cell (g : Grid) (o : Fin 8) (d : Fin 17) : Bool := (g.get o).get d

/-- The grid whose cell `(o, d)` is `f o d`. -/
def Grid.ofCells (f : Fin 8 → Fin 17 → Bool) : Grid := Vector.ofFn fun o => Vector.ofFn fun d => f o d

/-- `G[o][d] <- v`, the other 135 cells unchanged (R111). -/
def Grid.setCell (g : Grid) (o : Fin 8) (d : Fin 17) (v : Bool) : Grid :=
  Grid.ofCells fun o' d' => if o' = o ∧ d' = d then v else g.cell o' d'

/-- `G[o][d] <- v` for the 17 destinations of one output, the other 119 cells unchanged (R112). -/
def Grid.setRow (g : Grid) (o : Fin 8) (v : Bool) : Grid :=
  Grid.ofCells fun o' d' => if o' = o then v else g.cell o' d'

/-! ### Answering -/

/-- A response is delivered: it joins the run's record, and a `ContractViolation` marks the record for good
(R195, U3, log entry 3). -/
def State.respond (s : State) (r : Response) : State :=
  { s with responses := s.responses ++ [r], violated := s.violated || r.isViolation }

/-- The grid after a write. -/
def State.setGrid (s : State) (g : Grid) : State := { s with grid := g }

/-- The error return (R197): the response carries the code and nothing else, and the grid is unchanged. -/
def State.errorReturn (s : State) (e : Err) : State := s.respond (Response.error e)

/-- The end of an operation that writes no state: its reply, or its error. -/
def State.answer (s : State) (x : Except Err Reply) : Host.Outcome State Fault Refusal :=
  match x with
  | .ok r => .next (s.respond (Response.ok r))
  | .error e => .next (s.errorReturn e)

/-- The end of an operation that writes the grid and replies with nothing but the code: the new grid, or its
error, with nothing written (R47). -/
def State.commit (s : State) (x : Except Err Grid) : Host.Outcome State Fault Refusal :=
  match x with
  | .ok g => .next ((s.setGrid g).respond (Response.ok {}))
  | .error e => .next (s.errorReturn e)

/-! ### The host's side -/

/-- What the host has still to present. -/
def State.setInputs (s : State) (inputs : List HostEvent) : State := { s with inputs := inputs }

/-- The reset input, between two transactions: the grid is empty after it (R220, R222). The run's record is not
the block's state, and reset gives no response. -/
def State.assertReset (s : State) : State := s.setGrid Grid.empty

/-- The state in which the opcode table's word is the next thing the host presents (log entry 7). -/
def State.placeTableWord (s : State) (nbits w : Nat) : State :=
  match presentedOfTableWord nbits w with
  | some p => s.setInputs (.present p :: s.inputs)
  | none => s

end Sys2Proof.Machine
end

