-- ==== Sys2Proof/Machine/Codec.lean ====
section
/-!
DEFINITION. The 7-bit codec (spec/40_codec.md): `encode`, `decode` for sequences of any length, and the meanings of
`ENCODE`, `DECODE` and `RESERVED_0`.
-/
namespace Sys2Proof.Machine

/-! ### Encoding -/

/-- The carry byte of group `g` (R65): the byte at position `k` of the group puts its bit 7 into bit
`carrySlot k`; a slot whose source index is beyond the end is 0. -/
def carryByte (src : List Byte) (g : Nat) : Byte :=
  (List.range 7).foldl (fun c k => c ||| (bitAt (src.getD (7 * g + k) 0) 7 <<< carrySlot k)) 0

/-- The packed byte at index `j` (R63): the carry byte of its group at `8g`, else the low seven bits of a source
byte (R66). -/
def packedByte (src : List Byte) (j : Nat) : Byte :=
  if j % 8 = 0 then carryByte src (j / 8)
  else lowBits (src.getD (7 * (j / 8) + (j % 8 - 1)) 0)

/-- `encode(src)`, by the positions of R63. -/
def encodeBytes (src : List Byte) : List Byte :=
  (List.range (plen src.length)).map (packedByte src)

/-- One turn of the loop of R91's pseudocode: source byte `i` goes to its data byte and its carry bit. -/
def encodeTurn (src p : List Byte) (i : Nat) : List Byte :=
  let g := i / 7
  let k := i % 7
  let q := p.set (8 * g + 1 + k) (lowBits (src.getD i 0))
  q.set (8 * g) (q.getD (8 * g) 0 ||| (bitAt (src.getD i 0) 7 <<< carrySlot k))

/-- `encode(src)` as R91's pseudocode computes it: zeros, then one turn for each source byte. -/
def encodeLoop (src : List Byte) : List Byte :=
  (List.range src.length).foldl (encodeTurn src) (List.replicate (plen src.length) 0)

/-! ### Decoding -/

/-- The source byte at index `i`, reassembled from its data byte and its carry bit (R66, R95). -/
def sourceByte (p : List Byte) (i : Nat) : Byte :=
  lowBits (p.getD (8 * (i / 7) + 1 + i % 7) 0) |||
    (bitAt (p.getD (8 * (i / 7)) 0) (carrySlot (i % 7)) <<< 7)

/-- Whether every carry slot that corresponds to no source byte is 0, for a packet of `n` source bytes (R73). -/
def canonical (p : List Byte) (n : Nat) : Bool :=
  (List.range (7 * ceil7 n)).all fun i =>
    i < n || !(p.getD (8 * (i / 7)) 0).getLsbD (carrySlot (i % 7))

/-- `decode(p, n)` (R95): the length, then bit 7 of every byte, then, only if `STRICT_CARRY` (R73), the unused
slots; then the source bytes. -/
def decodeBytes (P : Params) (p : List Byte) (n : Nat) : Except Err (List Byte) :=
  if p.length ≠ plen n then .error .malformedPacket
  else if !sevenBitSafe p then .error .malformedPacket
  else if P.strictCarry && !canonical p n then .error .malformedPacket
  else .ok ((List.range n).map (sourceByte p))

/-! ### The operations -/

/-- `ENCODE` on its operands (R91). -/
def opEncode (P : Params) (src : List Byte) : Except Err Reply :=
  if overCapacity P src.length then .error .contractViolation
  else if overCapacity P (plen src.length) then .error .contractViolation
  else .ok { out := encodeBytes src }

/-- `DECODE` on its operands (R95). -/
def opDecode (P : Params) (n : Byte) (packet : List Byte) : Except Err Reply :=
  if overCapacity P packet.length then .error .contractViolation
  else (decodeBytes P packet n.toNat).map fun bytes => { out := bytes }

/-- `RESERVED_0` (R77): `ContractViolation`, nothing changes. -/
def execReserved0 (s : State) : Host.Outcome State Fault Refusal :=
  s.answer (.error .contractViolation)

/-- `ENCODE` (R91). -/
def execEncode (src : List Byte) (s : State) : Host.Outcome State Fault Refusal :=
  s.answer (opEncode Config.params src)

/-- `DECODE` (R95). -/
def execDecode (n : Byte) (packet : List Byte) (s : State) : Host.Outcome State Fault Refusal :=
  s.answer (opDecode Config.params n packet)

end Sys2Proof.Machine
end

