-- ==== Sys2Proof/Machine/Frame.lean ====
section
/-!
DEFINITION. The SysEx frame (spec/42_frame.md): `build`, `parse`, and the meanings of `F_BUILD` and `F_PARSE`.
-/
namespace Sys2Proof.Machine

/-- The five attributes of a SysEx message (R130). -/
structure Message where
  manufacturerId : Byte
  modelId : Byte
  deviceId : Byte
  command : Byte
  payload : List Byte
deriving DecidableEq, Repr

/-- `build(manufacturer_id, model_id, device_id, command, payload)` (R131): `F0`, the header, the payload, `F7`. -/
def buildFrame (m : Message) : List Byte :=
  [0xF0, m.manufacturerId, m.modelId, m.deviceId, m.command] ++ m.payload ++ [0xF7]

/-- The bytes at frame indices 5 to `F-2` (R60). -/
def framePayload (s : List Byte) : List Byte := (s.drop 5).take (s.length - 6)

/-- `parse(s)` (R134), none for `FrameError`: the length, the start delimiter, the end delimiter, bit 7 of the
payload bytes; then the fields by position, the header bytes untested (R72). -/
def parseFrame (s : List Byte) : Option Message :=
  if s.length < 6 then none
  else if s.getD 0 0 ≠ 0xF0 then none
  else if s.getD (s.length - 1) 0 ≠ 0xF7 then none
  else if !sevenBitSafe (framePayload s) then none
  else some
    { manufacturerId := s.getD 1 0
      modelId := s.getD 2 0
      deviceId := s.getD 3 0
      command := s.getD 4 0
      payload := framePayload s }

/-- A parsed message in the response's fields (R134, R174). -/
def Message.reply (m : Message) : Reply :=
  { r0 := m.manufacturerId, r1 := m.modelId, r2 := m.deviceId, r3 := m.command, out := m.payload }

/-- `F_BUILD` on its operands (R131): the capacity of `IN`, the capacity of `OUT`, the payload assertion. -/
def opBuild (P : Params) (m : Message) : Except Err Reply :=
  if overCapacity P m.payload.length then .error .contractViolation
  else if overCapacity P (m.payload.length + 6) then .error .contractViolation
  else if !sevenBitSafe m.payload then .error .contractViolation
  else .ok { out := buildFrame m }

/-- `parse` behind the capacity test (R134, R174). -/
def parseWithin (P : Params) (s : List Byte) : Except Err Message :=
  if overCapacity P s.length then .error .contractViolation
  else match parseFrame s with
    | none => .error .frameError
    | some m => .ok m

/-- `F_PARSE` on its operand (R134). -/
def opParse (P : Params) (s : List Byte) : Except Err Reply := (parseWithin P s).map Message.reply

/-- `F_BUILD` (R131). -/
def execFBuild (manufacturerId modelId deviceId command : Byte) (payload : List Byte) (s : State) :
    Host.Outcome State Fault Refusal :=
  s.answer (opBuild Config.params ⟨manufacturerId, modelId, deviceId, command, payload⟩)

/-- `F_PARSE` (R134). -/
def execFParse (frame : List Byte) (s : State) : Host.Outcome State Fault Refusal :=
  s.answer (opParse Config.params frame)

end Sys2Proof.Machine
end

