-- ==== Sys2Proof/Machine/Protocol.lean ====
section
/-!
DEFINITION. The command catalogue (spec/43_protocol.md): `check`, and the meaning of `P_CHECK`.
-/
namespace Sys2Proof.Machine

/-- The request rule of R156: `PING` and `READ_CONFIG` empty, `WRITE_CONFIG` 20 bytes, `CHANGE_DEVICE_ID` 1 byte. -/
def requestLengthOk (command : Byte) (len : Nat) : Bool :=
  if command = 0x01 then len = 0
  else if command = 0x02 then len = 0
  else if command = 0x03 then len = 20
  else len = 1

/-- The response rule of R156: `READ_CONFIG` 20 bytes; of the other three only what `RESP_RULE` asks, nothing by
default (D15, U5, log entry 11). -/
def responseLengthOk (P : Params) (command : Byte) (len : Nat) : Bool :=
  if command = 0x02 then len = 20 else P.respRule command len

/-- Whether a payload length is a valid one for a command of the codeset, in a direction (R156). -/
def lengthOk (P : Params) (command : Byte) (len : Nat) : Direction → Bool
  | .request => requestLengthOk command len
  | .response => responseLengthOk P command len

/-- `check(command, PL, dir)` (R156): the command first, then the length. -/
def checkCommand (P : Params) (command : Byte) (len : Nat) (dir : Direction) : Except Err Unit :=
  if !isCommand command then .error .unknownCommand
  else if !lengthOk P command len dir then .error .malformedPacket
  else .ok ()

/-- `P_CHECK` on its operands (R156): nothing but the code is returned. -/
def opCheck (P : Params) (command payloadLength : Byte) (dir : Direction) : Except Err Reply :=
  (checkCommand P command payloadLength.toNat dir).map fun _ => {}

/-- `P_CHECK` (R156). -/
def execPCheck (command payloadLength : Byte) (dir : Direction) (s : State) :
    Host.Outcome State Fault Refusal :=
  s.answer (opCheck Config.params command payloadLength dir)

end Sys2Proof.Machine
end

