-- ==== Sys2Proof/Machine/Table.lean ====
section
/-!
DEFINITION. The routing table (spec/41_routing_table.md): the mask view of the grid, and the meanings of `T_CLEAR`,
`T_SET`, `T_SET_ROW`, `T_MASK`, `T_TO_MASKS`, `T_FROM_MASKS`.
-/
namespace Sys2Proof.Machine

/-- `channel_mask(d)` (R22, R113): bit `o` is `G[o][d]`. -/
def channelMask (g : Grid) (d : Fin 17) : Byte :=
  (List.finRange 8).foldl (fun m o => if g.cell o d then m ||| (0x01#8 <<< o.val) else m) 0

/-- `to_masks(G)`: the masks in destination order 0..16 (R114). -/
def toMasks (g : Grid) : List Byte := (List.finRange 17).map (channelMask g)

/-- `from_masks(m)`: cell `(o, d)` is bit `o` of mask `d` (R115). -/
def fromMasks (masks : List Byte) : Grid :=
  Grid.ofCells fun o d => (masks.getD d.val 0).getLsbD o.val

/-- `T_SET` on its operands (R111). -/
def opSet (output destination : Byte) (enabled : Bool) (g : Grid) : Except Err Grid :=
  match outputIndex output, destinationIndex destination with
  | some o, some d => .ok (g.setCell o d enabled)
  | _, _ => .error .invalidIndex

/-- `T_SET_ROW` on its operands (R112). -/
def opSetRow (output : Byte) (enabled : Bool) (g : Grid) : Except Err Grid :=
  match outputIndex output with
  | some o => .ok (g.setRow o enabled)
  | none => .error .invalidIndex

/-- `T_MASK` on its operand (R113). -/
def opMask (destination : Byte) (g : Grid) : Except Err Reply :=
  match destinationIndex destination with
  | some d => .ok { r0 := channelMask g d }
  | none => .error .invalidIndex

/-- `T_FROM_MASKS` on its operand (R115). Any length but 17 is `ContractViolation`, one over the capacity (R31)
among them. -/
def opFromMasks (masks : List Byte) : Except Err Grid :=
  if masks.length ≠ 17 then .error .contractViolation else .ok (fromMasks masks)

/-- `T_CLEAR` (R110): all 136 cells false. -/
def execTClear (s : State) : Host.Outcome State Fault Refusal :=
  s.commit (.ok (Grid.ofCells fun _ _ => false))

/-- `T_SET` (R111). -/
def execTSet (output destination : Byte) (enabled : Bool) (s : State) :
    Host.Outcome State Fault Refusal :=
  s.commit (opSet output destination enabled s.grid)

/-- `T_SET_ROW` (R112). -/
def execTSetRow (output : Byte) (enabled : Bool) (s : State) : Host.Outcome State Fault Refusal :=
  s.commit (opSetRow output enabled s.grid)

/-- `T_MASK` (R113). -/
def execTMask (destination : Byte) (s : State) : Host.Outcome State Fault Refusal :=
  s.answer (opMask destination s.grid)

/-- `T_TO_MASKS` (R114). -/
def execTToMasks (s : State) : Host.Outcome State Fault Refusal :=
  s.answer (.ok { out := toMasks s.grid })

/-- `T_FROM_MASKS` (R115). -/
def execTFromMasks (masks : List Byte) (s : State) : Host.Outcome State Fault Refusal :=
  s.commit (opFromMasks masks)

end Sys2Proof.Machine
end

