-- ==== Sys2Proof/Machine/Composite.lean ====
section
/-!
DEFINITION. The collaborator-facing operations (spec/44_composite.md): the meanings of `ENCODE_TABLE`, `DECODE_TABLE`,
`BUILD_REQUEST`, `PARSE_RESPONSE`.
-/
namespace Sys2Proof.Machine

/-- `DECODE_TABLE` on its operand (R172): all or nothing. -/
def opDecodeTable (P : Params) (payload : List Byte) : Except Err Grid :=
  if overCapacity P payload.length then .error .contractViolation
  else (decodeBytes P payload 17).map fromMasks

/-- `BUILD_REQUEST` on its operands (R173): the capacity, the catalogue's check, the payload assertion (log entry 13). -/
def opBuildRequest (P : Params) (command deviceId : Byte) (payload : List Byte) : Except Err Reply :=
  if overCapacity P payload.length then .error .contractViolation
  else match checkCommand P command payload.length .request with
    | .error e => .error e
    | .ok () =>
      if !sevenBitSafe payload then .error .contractViolation
      else .ok { out := buildFrame ⟨P.mfgId, P.modelId, deviceId, command, payload⟩ }

/-- `PARSE_RESPONSE` on its operand (R174): the frame, then the command; no length rule, no comparison. -/
def opParseResponse (P : Params) (s : List Byte) : Except Err Reply :=
  match parseWithin P s with
  | .error e => .error e
  | .ok m => if !isCommand m.command then .error .unknownCommand else .ok m.reply

/-- `ENCODE_TABLE` (R171): `encode(to_masks(G))`. -/
def execEncodeTable (s : State) : Host.Outcome State Fault Refusal :=
  s.answer (.ok { out := encodeBytes (toMasks s.grid) })

/-- `DECODE_TABLE` (R172). -/
def execDecodeTable (payload : List Byte) (s : State) : Host.Outcome State Fault Refusal :=
  s.commit (opDecodeTable Config.params payload)

/-- `BUILD_REQUEST` (R173). -/
def execBuildRequest (command deviceId : Byte) (payload : List Byte) (s : State) :
    Host.Outcome State Fault Refusal :=
  s.answer (opBuildRequest Config.params command deviceId payload)

/-- `PARSE_RESPONSE` (R174). -/
def execParseResponse (frame : List Byte) (s : State) : Host.Outcome State Fault Refusal :=
  s.answer (opParseResponse Config.params frame)

end Sys2Proof.Machine
end

