-- ==== Sys2Proof/Machine/Wire.lean ====
section
/-!
DEFINITION. The wire formats of the opcode table as the block meets them. A frame of the protocol reaches the block in
a `PARSE_RESPONSE`, a frame of any other command in an `F_PARSE` (R201, R174, R136; log entry 4); the block does not
act on the command (R150, R6). A byte of a packed sequence reaches it in a `DECODE` (R63, R95; log entry 5).
-/
namespace Sys2Proof.Machine

/-- The answer to a frame of the protocol: `PARSE_RESPONSE` of its bytes (R174). -/
def receiveFrame (m : Message) (s : State) : Host.Outcome State Fault Refusal :=
  s.answer (opParseResponse Config.params (buildFrame m))

/-- `PING.request` received (R151). -/
def execPingRequest (manufacturerId modelId deviceId : Byte) (s : State) :
    Host.Outcome State Fault Refusal :=
  receiveFrame ⟨manufacturerId, modelId, deviceId, 0x01, []⟩ s

/-- `READ_CONFIG.request` received (R152). -/
def execReadConfigRequest (manufacturerId modelId deviceId : Byte) (s : State) :
    Host.Outcome State Fault Refusal :=
  receiveFrame ⟨manufacturerId, modelId, deviceId, 0x02, []⟩ s

/-- `READ_CONFIG.response` received (R152, R155; log entry 15). -/
def execReadConfigResponse (manufacturerId modelId deviceId : Byte) (payload : List Septet) (s : State) :
    Host.Outcome State Fault Refusal :=
  receiveFrame ⟨manufacturerId, modelId, deviceId, 0x02, payload.map septetByte⟩ s

/-- `WRITE_CONFIG.request` received (R153). -/
def execWriteConfigRequest (manufacturerId modelId deviceId : Byte) (payload : List Septet) (s : State) :
    Host.Outcome State Fault Refusal :=
  receiveFrame ⟨manufacturerId, modelId, deviceId, 0x03, payload.map septetByte⟩ s

/-- `CHANGE_DEVICE_ID.request` received (R154): the new id is the one payload byte; the block keeps no id (R28). -/
def execChangeDeviceIdRequest (manufacturerId modelId deviceId : Byte) (newId : Septet) (s : State) :
    Host.Outcome State Fault Refusal :=
  receiveFrame ⟨manufacturerId, modelId, deviceId, 0x04, [septetByte newId]⟩ s

/-- `FRAME.generic` received (R60): `F_PARSE` of its bytes, the command an opaque byte (R136). -/
def execFrameGeneric (manufacturerId modelId deviceId command : Byte) (payload : List Septet) (s : State) :
    Host.Outcome State Fault Refusal :=
  s.answer (opParse Config.params
    (buildFrame ⟨manufacturerId, modelId, deviceId, command, payload.map septetByte⟩))

/-- `PACKED.carry_byte` (R65): `DECODE` of the packet that holds it. -/
def execPackedCarryByte (n : Byte) (before : List Byte) (slots : Septet) (after : List Byte) (s : State) :
    Host.Outcome State Fault Refusal :=
  s.answer (opDecode Config.params n (before ++ septetByte slots :: after))

/-- `PACKED.data_byte` (R66): `DECODE` of the packet that holds it. -/
def execPackedDataByte (n : Byte) (before : List Byte) (low : Septet) (after : List Byte) (s : State) :
    Host.Outcome State Fault Refusal :=
  s.answer (opDecode Config.params n (before ++ septetByte low :: after))

end Sys2Proof.Machine
end

