-- ==== Sys2Proof/Machine/Dispatch.lean ====
section
/-!
DEFINITION. One arm per constructor of Instr.
-/
namespace Sys2Proof.Machine

/-- The meaning of an instruction. -/
def exec (i : Instr) (s : State) : Host.Outcome State Fault Refusal :=
  match i with
  | .reserved0 => Sys2Proof.Machine.execReserved0 s
  | .encode src => Sys2Proof.Machine.execEncode src s
  | .decode n packet => Sys2Proof.Machine.execDecode n packet s
  | .tClear => Sys2Proof.Machine.execTClear s
  | .tSet output destination enabled => Sys2Proof.Machine.execTSet output destination enabled s
  | .tSetRow output enabled => Sys2Proof.Machine.execTSetRow output enabled s
  | .tMask destination => Sys2Proof.Machine.execTMask destination s
  | .tToMasks => Sys2Proof.Machine.execTToMasks s
  | .tFromMasks masks => Sys2Proof.Machine.execTFromMasks masks s
  | .fBuild m o d c payload => Sys2Proof.Machine.execFBuild m o d c payload s
  | .fParse frame => Sys2Proof.Machine.execFParse frame s
  | .pCheck c len dir => Sys2Proof.Machine.execPCheck c len dir s
  | .encodeTable => Sys2Proof.Machine.execEncodeTable s
  | .decodeTable payload => Sys2Proof.Machine.execDecodeTable payload s
  | .buildRequest c d payload => Sys2Proof.Machine.execBuildRequest c d payload s
  | .parseResponse frame => Sys2Proof.Machine.execParseResponse frame s
  | .pingRequest m o d => Sys2Proof.Machine.execPingRequest m o d s
  | .readConfigRequest m o d => Sys2Proof.Machine.execReadConfigRequest m o d s
  | .readConfigResponse m o d payload => Sys2Proof.Machine.execReadConfigResponse m o d payload s
  | .writeConfigRequest m o d payload => Sys2Proof.Machine.execWriteConfigRequest m o d payload s
  | .changeDeviceIdRequest m o d newId => Sys2Proof.Machine.execChangeDeviceIdRequest m o d newId s
  | .frameGeneric m o d c payload => Sys2Proof.Machine.execFrameGeneric m o d c payload s
  | .packedCarryByte n before slots after => Sys2Proof.Machine.execPackedCarryByte n before slots after s
  | .packedDataByte n before low after => Sys2Proof.Machine.execPackedDataByte n before low after s

end Sys2Proof.Machine
end

