-- ==== Sys2Proof/Safety.lean ====
section
/-!
DEFINITION. What claims about a run are made in terms of: the next state of an answered transaction, a program of the
host and its outcome (R233), a run without a `ContractViolation` (U3), what a response record may hold (R30, R31,
R197), and a frame that is legal on the wire (R227).
-/
namespace Sys2Proof.Machine

/-- The state after a transaction that leaves the grid `g` and gives the response `r`: the response joins the
record, a `ContractViolation` marks it (U3), and what the host has still to present is unchanged. -/
def State.answered (s : State) (g : Grid) (r : Response) : State where
  grid := g
  inputs := s.inputs
  responses := s.responses ++ [r]
  violated := s.violated || decide (r.err = .error .contractViolation)

/-- The response with code `OK` and these results (R30). -/
def okResponse (r0 r1 r2 r3 : Byte) (out : List Byte) : Response := ⟨.ok, r0, r1, r2, r3, out⟩

/-- The response of an error return (R197): the code, `R0`..`R3` = 0, `OUT_LEN` = 0. -/
def errorResponse (e : Err) : Response := ⟨.error e, 0, 0, 0, 0, []⟩

/-- A host's program (R233): a finite list of requests, each of which may use the responses given before it. -/
abbrev Program := List (List Response → HostEvent)

/-- The run of a program: each request is presented alone, once the one before it has been answered (R224). -/
def Program.run : Program → State → Host.Outcome State Fault Refusal
  | [], s => .next s
  | e :: rest, s =>
    match step (s.setInputs [e s.responses]) with
    | .next t => Program.run rest t
    | .fault r => .fault r
    | .refused r => .refused r

/-- A run has ended when the last request has been answered (R233). -/
def State.finished (s : State) : Bool := s.inputs = []

/-- A run that has ended and in which no `ContractViolation` was answered (U3). -/
def State.successful (s : State) : Bool := s.finished && !s.violated

/-- What a response record may hold: at most 26 result bytes (R31), and beside an error code nothing (R197). -/
def Response.wellFormed (r : Response) : Bool :=
  match r.err with
  | .ok => r.out.length ≤ 26
  | .error e => r = errorResponse e

/-- The invariant of the run's record: every response is one a record may hold, and the fault mark is set exactly
when a `ContractViolation` has been answered. -/
def State.recordOk (s : State) : Bool :=
  s.responses.all Response.wellFormed &&
    s.violated == s.responses.any fun r => r.err = .error .contractViolation

/-- A well-formed frame by its positions (R60, R134): six bytes or more, `F0` first, `F7` last, every byte at indices
5 to `F-2` with bit 7 clear. -/
def isFrame (f : List Byte) : Prop :=
  6 ≤ f.length ∧ f.getD 0 0 = 0xF0 ∧ f.getD (f.length - 1) 0 = 0xF7 ∧
    ∀ j, 5 ≤ j → j + 2 ≤ f.length → (f.getD j 0).getLsbD 7 = false

/-- A packed sequence that `decode(p, n)` accepts when `STRICT_CARRY` is false (R95): the packed length of `n`, every
byte with bit 7 clear. -/
def isPacket (p : List Byte) (n : Nat) : Prop :=
  p.length = n + (n + 6) / 7 ∧ ∀ b ∈ p, b.getLsbD 7 = false

/-- A canonical packet for `n` source bytes (R73): every carry slot that corresponds to no source byte is 0. -/
def isCanonical (p : List Byte) (n : Nat) : Prop :=
  ∀ g k, g < (n + 6) / 7 → k < 7 → n ≤ 7 * g + k → (p.getD (8 * g) 0).getLsbD (6 - k) = false

/-- The payload length of a request, by its command byte, for the four commands (R62, R156). -/
def requestLength (command : Byte) : Nat := if command = 0x03 then 20 else if command = 0x04 then 1 else 0

/-- The four command bytes (R69). -/
def commandBytes : List Byte := [0x01, 0x02, 0x03, 0x04]

/-- A frame that satisfies the bit-7-clear constraint on the wire: `F0`, bytes with bit 7 clear, `F7` (R227). -/
def wireLegal (frame : List Byte) : Prop :=
  ∃ body : List Byte, frame = 0xF0 :: (body ++ [0xF7]) ∧ ∀ b ∈ body, b.getLsbD 7 = false

end Sys2Proof.Machine
end

