-- ==== Sys2Proof/Certificates/Slice0/Obligations.lean ====
section
/-!
DEFINITION. The statements for the provers. `s.answered g r` is the state after a transaction that leaves the grid `g`
and gives the response `r`, with everything else of `s` as it was, so each equation `exec i s = .next (s.answered g r)`
says that the instruction completes, what it answers, and what it leaves unchanged. `answered` also says what becomes of
the model's own fields: the inputs left, the response recorded, the mark of a `ContractViolation` (log entries 1, 2, 3);
the rules cited speak of the grid and the response.
-/

open Sys2Proof Sys2Proof.Machine

/-! ### Presenting, decoding, stepping -/

/-- What decodes to an instruction runs as that instruction, on the state from which the presented transaction has
been taken; the rest of what the host presents is left for later steps (R48, R49). -/
def Obligations.StepRunsTheDecodedInstruction : Prop :=
  ∀ (f : Format) (bytes : List Byte) (p : Presented) (i : Instr),
    Presented.ofBytes f bytes = .ok p → decode f bytes = .ok i →
    ∀ (s : State) (rest : List HostEvent), s.inputs = .present p :: rest →
      step s = exec i { s with inputs := rest }

/-- Every step answers a next state: the block is total (spec/93 U13). With nothing presented the step changes nothing,
which is the model's choice (log entry 1). -/
def Obligations.EveryStepHasANextState : Prop :=
  (∀ s : State, ∃ t, step s = .next t) ∧ ∀ s : State, s.inputs = [] → step s = .next s

/-- Encoding a well-formed instruction to the bytes of its format and decoding them gives it back, with every operand.
The byte form of a request and of a packed byte is the model's choice (log entry 6). -/
def Obligations.DecodeOfEncodeIsTheInstruction : Prop :=
  ∀ i : Instr, i.wellFormed = true → decode (encode i).1 (encode i).2 = .ok i

/-- The operation of each of the 16 selectors and the operands it is given (R75). -/
def Obligations.SelectorsNameTheirOperations : Prop :=
  ∀ (a b c d : Byte) (inp : List Byte),
    (⟨0x0, a, b, c, d, inp⟩ : Request).instr = .reserved0 ∧
    (⟨0x1, a, b, c, d, inp⟩ : Request).instr = .encode inp ∧
    (⟨0x2, a, b, c, d, inp⟩ : Request).instr = .decode a inp ∧
    (⟨0x3, a, b, c, d, inp⟩ : Request).instr = .tClear ∧
    (⟨0x4, a, b, c, d, inp⟩ : Request).instr = .tSet a b (c.getLsbD 0) ∧
    (⟨0x5, a, b, c, d, inp⟩ : Request).instr = .tSetRow a (c.getLsbD 0) ∧
    (⟨0x6, a, b, c, d, inp⟩ : Request).instr = .tMask b ∧
    (⟨0x7, a, b, c, d, inp⟩ : Request).instr = .tToMasks ∧
    (⟨0x8, a, b, c, d, inp⟩ : Request).instr = .tFromMasks inp ∧
    (⟨0x9, a, b, c, d, inp⟩ : Request).instr = .fBuild a b c d inp ∧
    (⟨0xA, a, b, c, d, inp⟩ : Request).instr = .fParse inp ∧
    (⟨0xB, a, b, c, d, inp⟩ : Request).instr =
      .pCheck a b (if c.getLsbD 0 then .response else .request) ∧
    (⟨0xC, a, b, c, d, inp⟩ : Request).instr = .encodeTable ∧
    (⟨0xD, a, b, c, d, inp⟩ : Request).instr = .decodeTable inp ∧
    (⟨0xE, a, b, c, d, inp⟩ : Request).instr = .buildRequest a b inp ∧
    (⟨0xF, a, b, c, d, inp⟩ : Request).instr = .parseResponse inp

/-- The frames of the protocol, byte for byte, with their lengths (R62). -/
def Obligations.ProtocolFramesHaveTheirBytes : Prop :=
  ∀ (m o d : Byte) (p : List Septet) (x : Septet),
    encode (.pingRequest m o d) = (.sysexFrame, [0xF0, m, o, d, 0x01, 0xF7]) ∧
    encode (.readConfigRequest m o d) = (.sysexFrame, [0xF0, m, o, d, 0x02, 0xF7]) ∧
    encode (.readConfigResponse m o d p) =
      (.sysexFrame, [0xF0, m, o, d, 0x02] ++ p.map (fun y => y.setWidth 8) ++ [0xF7]) ∧
    encode (.writeConfigRequest m o d p) =
      (.sysexFrame, [0xF0, m, o, d, 0x03] ++ p.map (fun y => y.setWidth 8) ++ [0xF7]) ∧
    encode (.changeDeviceIdRequest m o d x) =
      (.sysexFrame, [0xF0, m, o, d, 0x04, x.setWidth 8, 0xF7]) ∧
    (encode (.pingRequest m o d)).2.length = 6 ∧
    (encode (.readConfigRequest m o d)).2.length = 6 ∧
    (Instr.wellFormed (.readConfigResponse m o d p) = true →
      (encode (.readConfigResponse m o d p)).2.length = 26) ∧
    (Instr.wellFormed (.writeConfigRequest m o d p) = true →
      (encode (.writeConfigRequest m o d p)).2.length = 26) ∧
    (encode (.changeDeviceIdRequest m o d x)).2.length = 7

/-- Words written out from the encodings of spec/30_encoding.md decode to what they stand for. -/
def Obligations.WrittenOutWordsDecode : Prop :=
  decode .blockRequest [0x04, 0x07, 0x10, 0x01, 0x00, 0x00] = .ok (.tSet 7 16 true) ∧
  decode .blockRequest [0x01, 0x00, 0x00, 0x00, 0x00, 0x02, 0xFF, 0x00] = .ok (.encode [0xFF, 0x00]) ∧
  decode .blockRequest [0x0B, 0x02, 0x14, 0x01, 0x00, 0x00] = .ok (.pCheck 0x02 20 .response) ∧
  decode .sysexFrame [0xF0, 0x7D, 0x01, 0x05, 0x04, 0x06, 0xF7] =
    .ok (.changeDeviceIdRequest 0x7D 0x01 0x05 0x06) ∧
  decode .sysexFrame [0xF0, 0x7D, 0x01, 0x05, 0x09, 0x11, 0x22, 0xF7] =
    .ok (.frameGeneric 0x7D 0x01 0x05 0x09 [0x11, 0x22]) ∧
  decodeTableWord 8 0x0E = some (.buildRequest 0 0 []) ∧
  decodeTableWord 48 0xF701050701F0 = some (.pingRequest 0x01 0x07 0x05)

/-- Two requests that differ only in operands the operation does not read (R76), or in bits 7..1 of `enabled` or of
the direction, give the same step (spec/93 U9). -/
def Obligations.UnreadOperandsAreIgnored : Prop :=
  ∀ (r r' : Request) (s : State) (rest : List HostEvent),
    r.opsel = r'.opsel →
    (r.opsel.toNat ∈ [0x2, 0x4, 0x5, 0x9, 0xB, 0xE] → r.a = r'.a) →
    (r.opsel.toNat ∈ [0x4, 0x6, 0x9, 0xB, 0xE] → r.b = r'.b) →
    (r.opsel.toNat ∈ [0x4, 0x5, 0xB] → r.c.getLsbD 0 = r'.c.getLsbD 0) →
    (r.opsel.toNat = 0x9 → r.c = r'.c ∧ r.d = r'.d) →
    (r.opsel.toNat ∈ [0x1, 0x2, 0x8, 0x9, 0xA, 0xD, 0xE, 0xF] → r.inp = r'.inp) →
    step { s with inputs := .present (.request r) :: rest } =
      step { s with inputs := .present (.request r') :: rest }

/-- Handing over bytes as a frame is presenting `F_PARSE` of them, whatever the bytes (the model's choice, log entry 4;
the spec's sentence is R201's "which then presents a `F_PARSE` or `PARSE_RESPONSE` transaction"). -/
def Obligations.FrameHandedOverIsParsed : Prop :=
  ∀ (bytes : List Byte) (s : State) (rest : List HostEvent) (a b c d : Byte),
    step { s with inputs := .present (.frame bytes) :: rest } =
      step { s with inputs := .present (.request ⟨0xA, a, b, c, d, bytes⟩) :: rest }

/-- Handing over a packet with one byte singled out is presenting `DECODE` of it, whatever the byte (the model's choice,
log entry 5). -/
def Obligations.PacketHandedOverIsDecoded : Prop :=
  ∀ (n : Byte) (packet : List Byte) (idx : Nat) (s : State) (rest : List HostEvent) (b c d : Byte),
    step { s with inputs := .present (.packed n packet idx) :: rest } =
      step { s with inputs := .present (.request ⟨0x2, n, b, c, d, packet⟩) :: rest }

/-! ### The reserved selector and the codec -/

/-- The reserved request encodings (R77): `OPSEL = 0x0` is `ContractViolation` and changes nothing; of the `enabled` and
the direction operand only bit 0 is read. -/
def Obligations.ReservedRequestEncodings : Prop :=
  (∀ (a b c d : Byte) (inp : List Byte) (s : State),
    exec (⟨0x0, a, b, c, d, inp⟩ : Request).instr s =
      .next (s.answered s.grid (errorResponse .contractViolation))) ∧
  (∀ s : State, exec .reserved0 s = .next (s.answered s.grid (errorResponse .contractViolation))) ∧
  ∀ (op : BitVec 4) (a b c c' d : Byte) (inp : List Byte), op = 0x4 ∨ op = 0x5 ∨ op = 0xB →
    c.getLsbD 0 = c'.getLsbD 0 →
    (⟨op, a, b, c, d, inp⟩ : Request).instr = (⟨op, a, b, c', d, inp⟩ : Request).instr

/-- `ENCODE` (R91, R94): the pseudocode's packed bytes for up to 22 source bytes, `ContractViolation` beyond. -/
def Obligations.EncodeAnswersThePackedBytes : Prop :=
  ∀ (src : List Byte) (s : State),
    (∀ a b c d : Byte, (⟨0x1, a, b, c, d, src⟩ : Request).instr = .encode src) ∧
    (src.length ≤ 22 →
      exec (.encode src) s = .next (s.answered s.grid (okResponse 0 0 0 0 (encodeLoop src)))) ∧
    (23 ≤ src.length →
      exec (.encode src) s = .next (s.answered s.grid (errorResponse .contractViolation)))

/-- The positions of R63 and the loop of R91 define the same packed bytes, for every source sequence. -/
def Obligations.EncodeByPositionsIsTheLoop : Prop :=
  ∀ src : List Byte, encodeBytes src = encodeLoop src

/-- The properties of `encode` that the source states (R92): bit 7 clear, the length, the placement for 17 bytes, the
unused slots. -/
def Obligations.EncodeHasTheStatedProperties : Prop :=
  ∀ src : List Byte,
    (∀ b ∈ encodeBytes src, b.getLsbD 7 = false) ∧
    (encodeBytes src).length = src.length + (src.length + 6) / 7 ∧
    (src.length = 17 →
      (encodeBytes src).length = 20 ∧
      (∀ i < 7, (encodeBytes src).getD (1 + i) 0 = src.getD i 0 &&& 0x7F#8) ∧
      (∀ i < 7, (encodeBytes src).getD (9 + i) 0 = src.getD (7 + i) 0 &&& 0x7F#8) ∧
      (∀ i < 3, (encodeBytes src).getD (17 + i) 0 = src.getD (14 + i) 0 &&& 0x7F#8) ∧
      (∀ i < 7, ((encodeBytes src).getD 0 0).getLsbD (6 - i) = (src.getD i 0).getLsbD 7) ∧
      (∀ i < 7, ((encodeBytes src).getD 8 0).getLsbD (6 - i) = (src.getD (7 + i) 0).getLsbD 7) ∧
      (∀ i < 3, ((encodeBytes src).getD 16 0).getLsbD (6 - i) = (src.getD (14 + i) 0).getLsbD 7) ∧
      (encodeBytes src).getD 16 0 ∈ ([0x00, 0x10, 0x20, 0x30, 0x40, 0x50, 0x60, 0x70] : List Byte))

/-- The general form of the packed sequence (R63) and the carry byte (R65): where each source byte goes, and the slots
beyond the last source byte written 0. -/
def Obligations.EncodePlacesEverySourceByte : Prop :=
  ∀ src : List Byte,
    (encodeBytes src).length = src.length + (src.length + 6) / 7 ∧
    (∀ i < src.length,
      (encodeBytes src).getD (8 * (i / 7) + 1 + i % 7) 0 = src.getD i 0 &&& 0x7F#8 ∧
      ((encodeBytes src).getD (8 * (i / 7)) 0).getLsbD (6 - i % 7) = (src.getD i 0).getLsbD 7) ∧
    ∀ g < (src.length + 6) / 7,
      ((encodeBytes src).getD (8 * g) 0).getLsbD 7 = false ∧
      ∀ k < 7, src.length ≤ 7 * g + k → ((encodeBytes src).getD (8 * g) 0).getLsbD (6 - k) = false

/-- `DECODE` (R95), with `STRICT_CARRY` at its default: over capacity, not a packet for `n`, or the source bytes. -/
def Obligations.DecodeAnswersTheSourceBytes : Prop :=
  ∀ (n : Byte) (p : List Byte) (s : State),
    (∀ b c d : Byte, (⟨0x2, n, b, c, d, p⟩ : Request).instr = .decode n p) ∧
    (27 ≤ p.length →
      exec (.decode n p) s = .next (s.answered s.grid (errorResponse .contractViolation))) ∧
    (p.length ≤ 26 → ¬ isPacket p n.toNat →
      exec (.decode n p) s = .next (s.answered s.grid (errorResponse .malformedPacket))) ∧
    (p.length ≤ 26 → isPacket p n.toNat →
      ∃ out, exec (.decode n p) s = .next (s.answered s.grid (okResponse 0 0 0 0 out)) ∧
        out.length = n.toNat ∧
        ∀ i < n.toNat, out.getD i 0 =
          (p.getD (8 * (i / 7) + 1 + i % 7) 0 &&& 0x7F#8) |||
            (((p.getD (8 * (i / 7)) 0 >>> (6 - i % 7)) &&& 0x01#8) <<< 7))

/-- Packets that no `n` fits, and values of `n` that no packet fits. The spec derives these corner cases
("[derived: (a), (c), (d), (g) follow from rule R95]"). -/
def Obligations.DecodeCornersAreMalformed : Prop :=
  ∀ (n : Byte) (p : List Byte) (s : State), p.length ≤ 26 → p.length % 8 = 1 ∨ 23 ≤ n.toNat →
    exec (.decode n p) s = .next (s.answered s.grid (errorResponse .malformedPacket))

/-- Round trip of the codec for every length and for both values of `STRICT_CARRY`. The spec derives the general form
("[derived: the general-N statement and the injectivity …; the source states N = 17]"). -/
def Obligations.DecodeOfEncodeIsTheSource : Prop :=
  ∀ (P : Params) (src : List Byte), decodeBytes P (encodeBytes src) src.length = .ok src

/-- Non-canonical packets (R73): `encode` makes canonical packets only; with `STRICT_CARRY` false a packet decodes
to what any packet that agrees on the used slots decodes to; with it true a non-canonical packet is `MalformedPacket`
and nothing else changes; `encode` undoes `decode` exactly on the canonical packets. -/
def Obligations.UnusedCarrySlotsAreIgnoredUnlessStrict : Prop :=
  (∀ (P : Params) (src : List Byte), isCanonical (encodeBytes src) src.length ∧
    decodeBytes { P with strictCarry := false } (encodeBytes src) src.length = .ok src) ∧
  ∀ (P : Params) (p : List Byte) (n : Nat),
    (∀ q : List Byte, isPacket p n → isPacket q n →
      (∀ i < n, p.getD (8 * (i / 7) + 1 + i % 7) 0 = q.getD (8 * (i / 7) + 1 + i % 7) 0 ∧
        (p.getD (8 * (i / 7)) 0).getLsbD (6 - i % 7) = (q.getD (8 * (i / 7)) 0).getLsbD (6 - i % 7)) →
      ∃ out, decodeBytes { P with strictCarry := false } p n = .ok out ∧
        decodeBytes { P with strictCarry := false } q n = .ok out) ∧
    (isCanonical p n → decodeBytes { P with strictCarry := true } p n =
      decodeBytes { P with strictCarry := false } p n) ∧
    (¬ isCanonical p n → decodeBytes { P with strictCarry := true } p n = .error .malformedPacket) ∧
    ∀ out, decodeBytes { P with strictCarry := false } p n = .ok out →
      (encodeBytes out = p ↔ isCanonical p n)

/-! ### The routing table -/

/-- `T_CLEAR` (R110): every cell false, always `OK`, and eight `T_SET_ROW output=o enabled=0` leave the same grid. -/
def Obligations.ClearEmptiesEveryCell : Prop :=
  ∀ s : State, ∃ g : Grid,
    (∀ (a b c d : Byte) (inp : List Byte), (⟨0x3, a, b, c, d, inp⟩ : Request).instr = .tClear) ∧
    exec .tClear s = .next (s.answered g (okResponse 0 0 0 0 [])) ∧
    (∀ o d, g.cell o d = false) ∧
    ∃ t, Host.Core.run core 8
        { s with
          inputs := (List.range 8).map fun o => .present (.request ⟨0x5, BitVec.ofNat 8 o, 0, 0, 0, []⟩) } =
        .next t ∧ t.grid = g

/-- `T_SET` (R111): one cell is written and the other 135 are unchanged, or the index is out of range. -/
def Obligations.SetWritesOneCell : Prop :=
  ∀ (a b c : Byte) (s : State),
    (∀ (d : Byte) (inp : List Byte),
      (⟨0x4, a, b, c, d, inp⟩ : Request).instr = .tSet a b (c.getLsbD 0)) ∧
    (a.toNat < 8 → b.toNat < 17 → ∃ g : Grid,
      exec (.tSet a b (c.getLsbD 0)) s = .next (s.answered g (okResponse 0 0 0 0 [])) ∧
      ∀ o d, g.cell o d =
        if o.val = a.toNat ∧ d.val = b.toNat then c.getLsbD 0 else s.grid.cell o d) ∧
    (8 ≤ a.toNat ∨ 17 ≤ b.toNat →
      exec (.tSet a b (c.getLsbD 0)) s = .next (s.answered s.grid (errorResponse .invalidIndex)))

/-- `T_SET_ROW`: the 17 cells of one output are written and the other 119 are unchanged, or the index is out of range.
The index test is the spec's inference ("[derived: the `InvalidIndex` test, from the general statement of M18 §7]"). -/
def Obligations.SetRowWritesOneOutput : Prop :=
  ∀ (a : Byte) (v : Bool) (s : State),
    (a.toNat < 8 → ∃ g : Grid,
      exec (.tSetRow a v) s = .next (s.answered g (okResponse 0 0 0 0 [])) ∧
      ∀ o d, g.cell o d = if o.val = a.toNat then v else s.grid.cell o d) ∧
    (8 ≤ a.toNat →
      exec (.tSetRow a v) s = .next (s.answered s.grid (errorResponse .invalidIndex)))

/-- `T_MASK`: `R0` holds the eight cells of one destination, bit `o` output `o`, or the index is out of range.
The index test is the spec's inference ("[derived: the `InvalidIndex` test, from the general statement of M18 §7]"). -/
def Obligations.MaskReadsOneDestination : Prop :=
  ∀ (b : Byte) (s : State),
    (b.toNat < 17 → ∃ m : Byte,
      exec (.tMask b) s = .next (s.answered s.grid (okResponse m 0 0 0 [])) ∧
      ∀ (o : Fin 8) (d : Fin 17), d.val = b.toNat → m.getLsbD o.val = s.grid.cell o d) ∧
    (17 ≤ b.toNat → exec (.tMask b) s = .next (s.answered s.grid (errorResponse .invalidIndex)))

/-- `T_TO_MASKS` (R114): the 17 masks in destination order, bit `o` of mask `d` the cell, always `OK`. -/
def Obligations.ToMasksListsEveryMask : Prop :=
  ∀ s : State, ∃ out : List Byte,
    (∀ (a b c d : Byte) (inp : List Byte), (⟨0x7, a, b, c, d, inp⟩ : Request).instr = .tToMasks) ∧
    exec .tToMasks s = .next (s.answered s.grid (okResponse 0 0 0 0 out)) ∧
    out.length = 17 ∧
    ∀ (o : Fin 8) (d : Fin 17), (out.getD d.val 0).getLsbD o.val = s.grid.cell o d

/-- `T_FROM_MASKS` (R115): the grid is rebuilt from 17 masks, its former content replaced; another length is
`ContractViolation`. -/
def Obligations.FromMasksRebuildsTheGrid : Prop :=
  ∀ (masks : List Byte) (s : State),
    (∀ a b c d : Byte, (⟨0x8, a, b, c, d, masks⟩ : Request).instr = .tFromMasks masks) ∧
    (masks.length = 17 → ∃ g : Grid,
      exec (.tFromMasks masks) s = .next (s.answered g (okResponse 0 0 0 0 [])) ∧
      ∀ o d, g.cell o d = (masks.getD d.val 0).getLsbD o.val) ∧
    (masks.length ≠ 17 →
      exec (.tFromMasks masks) s = .next (s.answered s.grid (errorResponse .contractViolation)))

/-- The grid and the 17 masks carry the same bits: each operation undoes the other. The spec derives the second half
("[derived: (b), (c), (d) follow from rules R111 to R115; the source states (a)]"). -/
def Obligations.MasksAndGridCarryTheSameBits : Prop :=
  (∀ s : State, ∃ out,
    exec .tToMasks s = .next (s.answered s.grid (okResponse 0 0 0 0 out)) ∧
    ∀ t : State, exec (.tFromMasks out) t = .next (t.answered s.grid (okResponse 0 0 0 0 []))) ∧
  ∀ (m : List Byte) (s : State), m.length = 17 → ∃ g : Grid,
    exec (.tFromMasks m) s = .next (s.answered g (okResponse 0 0 0 0 [])) ∧
    ∀ t : State, t.grid = g →
      exec .tToMasks t = .next (t.answered g (okResponse 0 0 0 0 m))

/-! ### The frame and the command catalogue -/

/-- `F_BUILD` (R131, R132): the frame with the header bytes as given, or `ContractViolation` for a payload that does not
fit or has a byte with bit 7 set. -/
def Obligations.BuildAssemblesTheFrame : Prop :=
  ∀ (a b c d : Byte) (p : List Byte) (s : State),
    (⟨0x9, a, b, c, d, p⟩ : Request).instr = .fBuild a b c d p ∧
    (p.length ≤ 20 → (∀ x ∈ p, x.getLsbD 7 = false) →
      exec (.fBuild a b c d p) s =
        .next (s.answered s.grid (okResponse 0 0 0 0 ([0xF0, a, b, c, d] ++ p ++ [0xF7])))) ∧
    (21 ≤ p.length ∨ (∃ x ∈ p, x.getLsbD 7 = true) →
      exec (.fBuild a b c d p) s = .next (s.answered s.grid (errorResponse .contractViolation)))

/-- `F_PARSE` (R134): over capacity, `FrameError`, or the four header bytes and the payload as found. -/
def Obligations.ParseReturnsTheFields : Prop :=
  ∀ (f : List Byte) (s : State),
    (∀ a b c d : Byte, (⟨0xA, a, b, c, d, f⟩ : Request).instr = .fParse f) ∧
    (27 ≤ f.length →
      exec (.fParse f) s = .next (s.answered s.grid (errorResponse .contractViolation))) ∧
    (f.length ≤ 26 → ¬ isFrame f →
      exec (.fParse f) s = .next (s.answered s.grid (errorResponse .frameError))) ∧
    (f.length ≤ 26 → isFrame f → ∃ out,
      exec (.fParse f) s =
        .next (s.answered s.grid (okResponse (f.getD 1 0) (f.getD 2 0) (f.getD 3 0) (f.getD 4 0) out)) ∧
      out.length = f.length - 6 ∧ ∀ j < f.length - 6, out.getD j 0 = f.getD (5 + j) 0)

/-- Frame round trip, both ways. The spec derives the converse ("[derived: the converse and the length law follow from
rules R131 and R134; the source states the first]"). -/
def Obligations.BuildAndParseAreInverse : Prop :=
  ∀ (a b c d : Byte) (p f : List Byte) (s : State),
    (exec (.fBuild a b c d p) s = .next (s.answered s.grid (okResponse 0 0 0 0 f)) ↔
      exec (.fParse f) s = .next (s.answered s.grid (okResponse a b c d p)))

/-- `P_CHECK` (R156): the code for every command byte, every length, both directions. -/
def Obligations.CheckAppliesTheCatalogue : Prop :=
  ∀ (c pl : Byte) (s : State),
    (∀ (dir d : Byte) (inp : List Byte), (⟨0xB, c, pl, dir, d, inp⟩ : Request).instr =
      .pCheck c pl (if dir.getLsbD 0 then .response else .request)) ∧
    exec (.pCheck c pl .request) s = .next (s.answered s.grid
      (if c = 0x01 then if pl = 0 then okResponse 0 0 0 0 [] else errorResponse .malformedPacket
       else if c = 0x02 then if pl = 0 then okResponse 0 0 0 0 [] else errorResponse .malformedPacket
       else if c = 0x03 then if pl = 20 then okResponse 0 0 0 0 [] else errorResponse .malformedPacket
       else if c = 0x04 then if pl = 1 then okResponse 0 0 0 0 [] else errorResponse .malformedPacket
       else errorResponse .unknownCommand)) ∧
    exec (.pCheck c pl .response) s = .next (s.answered s.grid
      (if c = 0x02 then if pl = 20 then okResponse 0 0 0 0 [] else errorResponse .malformedPacket
       else if c = 0x01 ∨ c = 0x03 ∨ c = 0x04 then okResponse 0 0 0 0 []
       else errorResponse .unknownCommand))

/-! ### The collaborator-facing operations -/

/-- `ENCODE_TABLE` (R171) and the layout of its 20 bytes (R64): carry bits are output 7, data bits outputs 0 to 6, of
the destinations in order; always `OK`. -/
def Obligations.EncodeTableLaysOutTheGrid : Prop :=
  ∀ s : State, ∃ out : List Byte,
    (∀ (a b c d : Byte) (inp : List Byte), (⟨0xC, a, b, c, d, inp⟩ : Request).instr = .encodeTable) ∧
    exec .encodeTable s = .next (s.answered s.grid (okResponse 0 0 0 0 out)) ∧
    out.length = 20 ∧ (∀ b ∈ out, b.getLsbD 7 = false) ∧
    (∀ (d : Fin 17) (o : Fin 8), o.val < 7 →
      (out.getD (8 * (d.val / 7) + 1 + d.val % 7) 0).getLsbD o.val = s.grid.cell o d) ∧
    (∀ d : Fin 17, (out.getD (8 * (d.val / 7)) 0).getLsbD (6 - d.val % 7) = s.grid.cell 7 d) ∧
    ∀ j < 4, (out.getD 16 0).getLsbD j = false

/-- `DECODE_TABLE` (R172): all 136 cells from the 20 bytes, the unused slots ignored, or an error and no cell
written. -/
def Obligations.DecodeTableRebuildsTheGrid : Prop :=
  ∀ (p : List Byte) (s : State),
    (∀ a b c d : Byte, (⟨0xD, a, b, c, d, p⟩ : Request).instr = .decodeTable p) ∧
    (27 ≤ p.length →
      exec (.decodeTable p) s = .next (s.answered s.grid (errorResponse .contractViolation))) ∧
    (p.length ≤ 26 → p.length ≠ 20 ∨ (∃ b ∈ p, b.getLsbD 7 = true) →
      exec (.decodeTable p) s = .next (s.answered s.grid (errorResponse .malformedPacket))) ∧
    (p.length = 20 → (∀ b ∈ p, b.getLsbD 7 = false) → ∃ g : Grid,
      exec (.decodeTable p) s = .next (s.answered g (okResponse 0 0 0 0 [])) ∧
      (∀ (d : Fin 17) (o : Fin 8), o.val < 7 →
        g.cell o d = (p.getD (8 * (d.val / 7) + 1 + d.val % 7) 0).getLsbD o.val) ∧
      ∀ d : Fin 17, g.cell 7 d = (p.getD (8 * (d.val / 7)) 0).getLsbD (6 - d.val % 7))

/-- `BUILD_REQUEST` (R173): the checks in their order, then the frame with the block's two identifier bytes. -/
def Obligations.BuildRequestChecksThenBuilds : Prop :=
  ∀ (c d : Byte) (p : List Byte) (s : State),
    (∀ c' d' : Byte, (⟨0xE, c, d, c', d', p⟩ : Request).instr = .buildRequest c d p) ∧
    (27 ≤ p.length →
      exec (.buildRequest c d p) s = .next (s.answered s.grid (errorResponse .contractViolation))) ∧
    (p.length ≤ 26 → c ∉ commandBytes →
      exec (.buildRequest c d p) s = .next (s.answered s.grid (errorResponse .unknownCommand))) ∧
    (p.length ≤ 26 → c ∈ commandBytes → p.length ≠ requestLength c →
      exec (.buildRequest c d p) s = .next (s.answered s.grid (errorResponse .malformedPacket))) ∧
    (c ∈ commandBytes → p.length = requestLength c → (∃ b ∈ p, b.getLsbD 7 = true) →
      exec (.buildRequest c d p) s = .next (s.answered s.grid (errorResponse .contractViolation))) ∧
    (c ∈ commandBytes → p.length = requestLength c → (∀ b ∈ p, b.getLsbD 7 = false) →
      exec (.buildRequest c d p) s = .next (s.answered s.grid
        (okResponse 0 0 0 0 ([0xF0, Config.mfgId, Config.modelId, d, c] ++ p ++ [0xF7]))))

/-- `PARSE_RESPONSE` (R174): the frame first, then the command; the payload whatever its length. -/
def Obligations.ParseResponseChecksFrameThenCommand : Prop :=
  ∀ (f : List Byte) (s : State),
    (∀ a b c d : Byte, (⟨0xF, a, b, c, d, f⟩ : Request).instr = .parseResponse f) ∧
    (27 ≤ f.length →
      exec (.parseResponse f) s = .next (s.answered s.grid (errorResponse .contractViolation))) ∧
    (f.length ≤ 26 → ¬ isFrame f →
      exec (.parseResponse f) s = .next (s.answered s.grid (errorResponse .frameError))) ∧
    (f.length ≤ 26 → isFrame f → f.getD 4 0 ∉ commandBytes →
      exec (.parseResponse f) s = .next (s.answered s.grid (errorResponse .unknownCommand))) ∧
    (f.length ≤ 26 → isFrame f → f.getD 4 0 ∈ commandBytes → ∃ out,
      exec (.parseResponse f) s =
        .next (s.answered s.grid (okResponse (f.getD 1 0) (f.getD 2 0) (f.getD 3 0) (f.getD 4 0) out)) ∧
      out.length = f.length - 6 ∧ ∀ j < f.length - 6, out.getD j 0 = f.getD (5 + j) 0)

/-- Each collaborator-facing operation is its composition of primitive ones (R79), in one transaction. -/
def Obligations.CompositesAreTheirPrimitives : Prop :=
  (∀ s : State, ∃ m p,
    exec .tToMasks s = .next (s.answered s.grid (okResponse 0 0 0 0 m)) ∧
    exec (.encode m) s = .next (s.answered s.grid (okResponse 0 0 0 0 p)) ∧
    exec .encodeTable s = .next (s.answered s.grid (okResponse 0 0 0 0 p))) ∧
  (∀ (p m : List Byte) (s : State),
    exec (.decode 17 p) s = .next (s.answered s.grid (okResponse 0 0 0 0 m)) →
    exec (.decodeTable p) s = exec (.tFromMasks m) s) ∧
  (∀ (p : List Byte) (e : Err) (s : State),
    exec (.decode 17 p) s = .next (s.answered s.grid (errorResponse e)) →
    exec (.decodeTable p) s = exec (.decode 17 p) s) ∧
  (∀ (c d : Byte) (p : List Byte) (s : State), p.length ≤ 26 →
    exec (.pCheck c (BitVec.ofNat 8 p.length) .request) s =
      .next (s.answered s.grid (okResponse 0 0 0 0 [])) →
    exec (.buildRequest c d p) s = exec (.fBuild Config.mfgId Config.modelId d c p) s) ∧
  (∀ (c d : Byte) (p : List Byte) (e : Err) (s : State), p.length ≤ 26 →
    exec (.pCheck c (BitVec.ofNat 8 p.length) .request) s =
      .next (s.answered s.grid (errorResponse e)) →
    exec (.buildRequest c d p) s = .next (s.answered s.grid (errorResponse e))) ∧
  ∀ (f : List Byte) (s : State),
    (isFrame f → f.getD 4 0 ∉ commandBytes → f.length ≤ 26 →
      exec (.parseResponse f) s = .next (s.answered s.grid (errorResponse .unknownCommand))) ∧
    (¬ isFrame f ∨ f.getD 4 0 ∈ commandBytes ∨ 27 ≤ f.length →
      exec (.parseResponse f) s = exec (.fParse f) s)

/-- The table survives the send and receive paths, the request survives its frame, and pushing any table never fails.
The spec derives all three ("[derived: (a) from `40_codec.md` rule R97 …]"). -/
def Obligations.SendAndReceivePathsRestore : Prop :=
  (∀ s : State, ∃ p,
    exec .encodeTable s = .next (s.answered s.grid (okResponse 0 0 0 0 p)) ∧
    (∀ t : State, exec (.decodeTable p) t = .next (t.answered s.grid (okResponse 0 0 0 0 []))) ∧
    ∀ (d : Byte) (t : State), ∃ f,
      exec (.buildRequest 0x03 d p) t = .next (t.answered t.grid (okResponse 0 0 0 0 f))) ∧
  ∀ (c d : Byte) (p f : List Byte) (s t : State),
    exec (.buildRequest c d p) s = .next (s.answered s.grid (okResponse 0 0 0 0 f)) →
    exec (.parseResponse f) t =
      .next (t.answered t.grid (okResponse Config.mfgId Config.modelId d c p))

/-! ### Frames and packed bytes handed over -/

/-- A frame of the protocol handed over is answered with its fields, and the block acts on nothing: the grid is as it
was (R150). The transaction that takes it is the model's choice (log entry 4). -/
def Obligations.ProtocolFramesAreParsedNotExecuted : Prop :=
  ∀ (m o d : Byte) (p : List Septet) (x : Septet) (s : State),
    exec (.pingRequest m o d) s = .next (s.answered s.grid (okResponse m o d 0x01 [])) ∧
    exec (.readConfigRequest m o d) s = .next (s.answered s.grid (okResponse m o d 0x02 [])) ∧
    exec (.changeDeviceIdRequest m o d x) s =
      .next (s.answered s.grid (okResponse m o d 0x04 [x.setWidth 8])) ∧
    (p.length = 20 →
      exec (.readConfigResponse m o d p) s =
        .next (s.answered s.grid (okResponse m o d 0x02 (p.map fun y => y.setWidth 8))) ∧
      exec (.writeConfigRequest m o d p) s =
        .next (s.answered s.grid (okResponse m o d 0x03 (p.map fun y => y.setWidth 8))))

/-- A generic frame handed over is answered with its fields, whatever its command byte, or is over capacity. The
transaction that takes it is the model's choice (log entry 4). -/
def Obligations.GenericFramesAreParsed : Prop :=
  ∀ (m o d c : Byte) (p : List Septet) (s : State),
    (p.length ≤ 20 → exec (.frameGeneric m o d c p) s =
      .next (s.answered s.grid (okResponse m o d c (p.map fun y => y.setWidth 8)))) ∧
    (21 ≤ p.length → exec (.frameGeneric m o d c p) s =
      .next (s.answered s.grid (errorResponse .contractViolation)))

/-- A carry byte gives bit 7 of each source byte of its group (R65, R66). The transaction that takes it is the model's
choice (log entry 5). -/
def Obligations.CarryByteGivesTheHighBits : Prop :=
  ∀ (n : Byte) (before : List Byte) (slots : Septet) (after : List Byte) (s : State),
    before.length % 8 = 0 → before.length + 1 + after.length ≤ 26 →
    (isPacket (before ++ slots.setWidth 8 :: after) n.toNat → ∃ out,
      exec (.packedCarryByte n before slots after) s =
        .next (s.answered s.grid (okResponse 0 0 0 0 out)) ∧
      out.length = n.toNat ∧
      ∀ k < 7, 7 * (before.length / 8) + k < n.toNat →
        (out.getD (7 * (before.length / 8) + k) 0).getLsbD 7 = slots.getLsbD (6 - k)) ∧
    (¬ isPacket (before ++ slots.setWidth 8 :: after) n.toNat →
      exec (.packedCarryByte n before slots after) s =
        .next (s.answered s.grid (errorResponse .malformedPacket)))

/-- A data byte gives bits 6..0 of its source byte (R66). The transaction that takes it is the model's choice
(log entry 5). -/
def Obligations.DataByteGivesTheLowBits : Prop :=
  ∀ (n : Byte) (before : List Byte) (low : Septet) (after : List Byte) (s : State),
    before.length % 8 ≠ 0 → before.length + 1 + after.length ≤ 26 →
    (isPacket (before ++ low.setWidth 8 :: after) n.toNat → ∃ out,
      exec (.packedDataByte n before low after) s =
        .next (s.answered s.grid (okResponse 0 0 0 0 out)) ∧
      out.length = n.toNat ∧
      ∀ j < 7, (out.getD (7 * (before.length / 8) + (before.length % 8 - 1)) 0).getLsbD j =
        low.getLsbD j) ∧
    (¬ isPacket (before ++ low.setWidth 8 :: after) n.toNat →
      exec (.packedDataByte n before low after) s =
        .next (s.answered s.grid (errorResponse .malformedPacket)))

/-! ### Rules of the whole machine -/

/-- Which requests return `InvalidIndex`, and no other does; the grid is then untouched (R191). -/
def Obligations.InvalidIndexIsRaisedExactlyByTheIndexedOperations : Prop :=
  ∀ (q : Request) (s : State), ∃ g r, exec q.instr s = .next (s.answered g r) ∧
    (r.err = .error .invalidIndex → g = s.grid) ∧
    (r.err = .error .invalidIndex ↔
      (q.opsel = 0x4 ∧ (8 ≤ q.a.toNat ∨ 17 ≤ q.b.toNat)) ∨
      (q.opsel = 0x5 ∧ 8 ≤ q.a.toNat) ∨
      (q.opsel = 0x6 ∧ 17 ≤ q.b.toNat))

/-- Which requests return `MalformedPacket`, and no other does (R192): a sequence that is no packet for `n`, a payload
length that breaks the command's rule. -/
def Obligations.MalformedPacketIsRaisedExactlyForBadPackets : Prop :=
  ∀ (q : Request) (s : State), ∃ g r, exec q.instr s = .next (s.answered g r) ∧
    (r.err = .error .malformedPacket ↔
      (q.opsel = 0x2 ∧ q.inp.length ≤ 26 ∧ ¬ isPacket q.inp q.a.toNat) ∨
      (q.opsel = 0xD ∧ q.inp.length ≤ 26 ∧ ¬ isPacket q.inp 17) ∨
      (q.opsel = 0xB ∧ q.c.getLsbD 0 = false ∧ q.a ∈ commandBytes ∧ q.b.toNat ≠ requestLength q.a) ∨
      (q.opsel = 0xB ∧ q.c.getLsbD 0 = true ∧ q.a = 0x02 ∧ q.b ≠ 20) ∨
      (q.opsel = 0xE ∧ q.inp.length ≤ 26 ∧ q.a ∈ commandBytes ∧ q.inp.length ≠ requestLength q.a))

/-- Which requests return `FrameError`, and no other does (R193). -/
def Obligations.FrameErrorIsRaisedExactlyForBadFrames : Prop :=
  ∀ (q : Request) (s : State), ∃ g r, exec q.instr s = .next (s.answered g r) ∧
    (r.err = .error .frameError ↔
      (q.opsel = 0xA ∨ q.opsel = 0xF) ∧ q.inp.length ≤ 26 ∧ ¬ isFrame q.inp)

/-- Which requests return `UnknownCommand`, and no other does, `F_BUILD` and `F_PARSE` among them (R194). -/
def Obligations.UnknownCommandIsRaisedExactlyByTheCatalogue : Prop :=
  ∀ (q : Request) (s : State), ∃ g r, exec q.instr s = .next (s.answered g r) ∧
    (r.err = .error .unknownCommand ↔
      (q.opsel = 0xB ∧ q.a ∉ commandBytes) ∨
      (q.opsel = 0xE ∧ q.inp.length ≤ 26 ∧ q.a ∉ commandBytes) ∨
      (q.opsel = 0xF ∧ q.inp.length ≤ 26 ∧ isFrame q.inp ∧ q.inp.getD 4 0 ∉ commandBytes))

/-- Which requests are contract violations (R195, its four causes); the response marks the run's record (spec/93 U3, log
entry 3). `BUILD_REQUEST` answers in the order of its own pseudocode (R173, R199, R205): capacity of `IN`, command, length,
then bit 7; that R31's remark on 21 to 26 bytes does not win over it is DEDUCED (log entry 13). The rows that hand over a
frame or a packed byte answer as the transaction that takes them (log entries 4, 5). -/
def Obligations.ContractViolationIsRaisedExactlyForItsCauses : Prop :=
  ∀ (i : Instr) (s : State), ∃ g r, exec i s = .next (s.answered g r) ∧
    (r.err = .error .contractViolation → g = s.grid) ∧
    (r.err = .error .contractViolation ↔
      match i with
      | .reserved0 => True
      | .encode src => 23 ≤ src.length
      | .decode _ p => 27 ≤ p.length
      | .tFromMasks m => m.length ≠ 17
      | .fBuild _ _ _ _ p => 21 ≤ p.length ∨ ∃ b ∈ p, b.getLsbD 7 = true
      | .fParse f => 27 ≤ f.length
      | .decodeTable p => 27 ≤ p.length
      | .buildRequest c _ p => 27 ≤ p.length ∨
        (c ∈ commandBytes ∧ p.length = requestLength c ∧ ∃ b ∈ p, b.getLsbD 7 = true)
      | .parseResponse f => 27 ≤ f.length
      | .readConfigResponse _ _ _ p => 21 ≤ p.length
      | .writeConfigRequest _ _ _ p => 21 ≤ p.length
      | .frameGeneric _ _ _ _ p => 21 ≤ p.length
      | .packedCarryByte _ before _ after => 27 ≤ before.length + 1 + after.length
      | .packedDataByte _ before _ after => 27 ≤ before.length + 1 + after.length
      | _ => False)

/-- What an error return does (R197): the code, `R0`..`R3` = 0, `OUT_LEN` = 0, the grid as it was. -/
def Obligations.ErrorReturnLeavesNothing : Prop :=
  ∀ (i : Instr) (s : State), ∃ g r, exec i s = .next (s.answered g r) ∧
    ∀ e, r.err = .error e → r = errorResponse e ∧ g = s.grid

/-- No error depends on the grid or on an earlier transaction: the code is a function of the request alone. The spec
derives it ("[derived: the last clause, from the pseudocode of `40_codec.md` to `44_composite.md`]"). -/
def Obligations.ResultCodesDependOnTheRequestAlone : Prop :=
  ∀ i : Instr, ∃ code : ErrCode, ∀ s : State, ∃ g r, exec i s = .next (s.answered g r) ∧ r.err = code

/-- After an error the next transaction runs as if the failed one had not been presented (R200). -/
def Obligations.FailedTransactionsLeaveNoTrace : Prop :=
  ∀ (i j : Instr) (s : State) (e : Err),
    exec i s = .next (s.answered s.grid (errorResponse e)) →
    ∃ g r, exec j s = .next (s.answered g r) ∧
      exec j (s.answered s.grid (errorResponse e)) =
        .next ((s.answered s.grid (errorResponse e)).answered g r)

/-- Which operations write the grid and which read it (R23): no other operation does either, and beside them only the
reset input writes it. -/
def Obligations.GridIsAccessedOnlyByItsOperations : Prop :=
  (∀ (i : Instr) (s : State), ∃ g r, exec i s = .next (s.answered g r) ∧
    (match i with
      | .tClear => True
      | .tSet _ _ _ => True
      | .tSetRow _ _ => True
      | .tFromMasks _ => True
      | .decodeTable _ => True
      | _ => g = s.grid)) ∧
  (∀ i : Instr,
    match i with
    | .tMask _ => True
    | .tToMasks => True
    | .encodeTable => True
    | _ => ∃ r, ∀ s : State, ∃ g, exec i s = .next (s.answered g r)) ∧
  ∀ s t : State, step s = .next t → t.grid ≠ s.grid →
    s.inputs.head? = some .reset ∨
      ∃ p rest, s.inputs = .present p :: rest ∧
        (p.instr = .tClear ∨ (∃ o d v, p.instr = .tSet o d v) ∨ (∃ o v, p.instr = .tSetRow o v) ∨
          (∃ m, p.instr = .tFromMasks m) ∨ ∃ q, p.instr = .decodeTable q)

/-- Nothing but the grid persists from one transaction to the next (R24): what a transaction answers and leaves depends on
the request and the grid alone, not on any earlier response, mark or request. -/
def Obligations.OnlyTheGridPersists : Prop :=
  ∀ (i : Instr) (g : Grid), ∃ g' r, ∀ s : State, s.grid = g → exec i s = .next (s.answered g' r)

/-- Presenting a transaction twice leaves the same grid and the same response as presenting it once. The spec derives
it ("[derived: from the pseudocode of every operation in `40_codec.md` to `44_composite.md`]"). -/
def Obligations.RepeatingATransactionChangesNothing : Prop :=
  ∀ (i : Instr) (s : State), ∃ g r, exec i s = .next (s.answered g r) ∧
    exec i (s.answered g r) = .next ((s.answered g r).answered g r)

/-- After reset (R220), at the start or by the reset input, every cell is false, every mask 0 and `ENCODE_TABLE` gives
twenty zeros. -/
def Obligations.ResetEmptiesTheGrid : Prop :=
  ∀ t : State, (t = State.reset ∨ ∃ s rest, s.inputs = .reset :: rest ∧ step s = .next t) →
    (∀ o d, t.grid.cell o d = false) ∧ (∀ d, channelMask t.grid d = 0) ∧
    exec .encodeTable t = .next (t.answered t.grid (okResponse 0 0 0 0 (List.replicate 20 0)))

/-- The reset input falls between two transactions and gives no response; what the host has still to present and the
run's record are as they were (R222; the record is the model's, log entry 12). -/
def Obligations.ResetInputGivesNoResponse : Prop :=
  ∀ (s : State) (rest : List HostEvent), s.inputs = .reset :: rest →
    step s = .next { grid := State.reset.grid, inputs := rest, responses := s.responses, violated := s.violated }

/-- The invariant of the run's record that every step keeps: each response holds at most 26 result bytes and an error
response nothing but its code, and the fault mark is set exactly when a `ContractViolation` has been answered (R31, R197,
spec/93 U3). The record and its mark are the model's (log entries 2, 3). -/
def Obligations.StepKeepsTheRecord : Prop :=
  ∀ s t : State, s.recordOk = true → step s = .next t → t.recordOk = true

/-- The invariant of the run's record holds at reset. -/
def Obligations.ResetRecordIsSound : Prop := State.reset.recordOk = true

/-- No step clears the fault mark, so a run that violated the contract never ends successful (spec/93 U3). -/
def Obligations.ViolationMarkIsNeverCleared : Prop :=
  ∀ s t : State, s.violated = true → step s = .next t → t.violated = true ∧ t.successful = false

/-- The capacity test for every `CAP` of at least 26 (spec/93 U12): an over-capacity operand, or result of `ENCODE` or
`F_BUILD`, is `ContractViolation`, and no result is longer than `CAP`. What `BUILD_REQUEST` answers to a payload that fits
`IN` is not said here (log entry 13). -/
def Obligations.CapacityBoundsEveryBuffer : Prop :=
  ∀ P : Params, 26 ≤ P.cap →
    (∀ src, opEncode P src =
      if P.cap < src.length + (src.length + 6) / 7 then .error .contractViolation
      else .ok { out := encodeBytes src }) ∧
    (∀ n p, P.cap < p.length → opDecode P n p = .error .contractViolation) ∧
    (∀ m, P.cap < m.length → opFromMasks m = .error .contractViolation) ∧
    (∀ m, P.cap < m.payload.length + 6 → opBuild P m = .error .contractViolation) ∧
    (∀ f, P.cap < f.length → opParse P f = .error .contractViolation) ∧
    (∀ p, P.cap < p.length → opDecodeTable P p = .error .contractViolation) ∧
    (∀ c d p, P.cap < p.length → opBuildRequest P c d p = .error .contractViolation) ∧
    (∀ f, P.cap < f.length → opParseResponse P f = .error .contractViolation) ∧
    ∀ r, ((∃ src, opEncode P src = .ok r) ∨ (∃ n p, opDecode P n p = .ok r) ∨
        (∃ m, opBuild P m = .ok r) ∨ (∃ f, opParse P f = .ok r) ∨
        (∃ c d p, opBuildRequest P c d p = .ok r) ∨ ∃ f, opParseResponse P f = .ok r) →
      r.out.length ≤ P.cap

/-- A frame that `BUILD_REQUEST` builds is legal on the wire exactly when the identifiers are at most `0x7F`, which is the
host's duty and not a test of the block (R227, R72). For every value of the identifiers. -/
def Obligations.WireLegalityIsTheHostsDuty : Prop :=
  ∀ (P : Params) (c d : Byte) (p : List Byte) (r : Reply), opBuildRequest P c d p = .ok r →
    (wireLegal r.out ↔
      P.mfgId.getLsbD 7 = false ∧ P.modelId.getLsbD 7 = false ∧ d.getLsbD 7 = false)
end

