-- ==== Sys2Proof/Laws/Codec.lean ====
section
/-!
SUPPORT. The codec by its bits: what each bit of a carry byte, a packed byte and a reassembled source byte is, the
lengths, and how `decodeBytes` answers.
-/
namespace Sys2Proof.Machine

theorem bit7_eq (b : Byte) : bit7 b = b.getLsbD 7 := rfl

theorem sevenBitSafe_iff (l : List Byte) : sevenBitSafe l = true ↔ ∀ b ∈ l, b.getLsbD 7 = false := by
  simp [sevenBitSafe, bit7]

theorem sevenBitSafe_eq_false_iff (l : List Byte) :
    sevenBitSafe l = false ↔ ∃ b ∈ l, b.getLsbD 7 = true := by
  simp [sevenBitSafe, bit7]

@[simp] theorem getLsbD_septetByte (x : Septet) (j : Nat) :
    (septetByte x).getLsbD j = x.getLsbD j := by
  simp only [septetByte, BitVec.getLsbD_setWidth]
  by_cases h : j < 8
  · simp [h]
  · simp [h]; exact BitVec.getLsbD_of_ge x j (by omega)

@[simp] theorem bit7_septetByte (x : Septet) : bit7 (septetByte x) = false := by
  rw [bit7_eq, getLsbD_septetByte]; exact BitVec.getLsbD_of_ge x 7 (by omega)

@[simp] theorem lowSeptet_septetByte (x : Septet) : lowSeptet (septetByte x) = x := by
  apply BitVec.eq_of_getLsbD_eq
  intro i hi
  simp only [lowSeptet, BitVec.getLsbD_setWidth, getLsbD_septetByte]; simp [hi]

/-- A byte with bit 7 clear is its seven low bits. -/
theorem septetByte_lowSeptet {b : Byte} (h : bit7 b = false) : septetByte (lowSeptet b) = b := by
  apply BitVec.eq_of_getLsbD_eq
  intro i hi
  rw [getLsbD_septetByte, lowSeptet, BitVec.getLsbD_setWidth]
  by_cases h7 : i < 7
  · simp [h7]
  · obtain rfl : i = 7 := by omega
    simpa [bit7] using h.symm

@[simp] theorem sevenBitSafe_map_septetByte (p : List Septet) :
    sevenBitSafe (p.map septetByte) = true := by
  simp [sevenBitSafe]

/-- The low seven bits of a byte. -/
@[simp] theorem getLsbD_lowBits (b : Byte) (j : Nat) :
    (lowBits b).getLsbD j = (decide (j < 7) && b.getLsbD j) := by
  unfold lowBits
  by_cases hj : j < 8
  · interval_cases j <;> simp
  · rw [BitVec.getLsbD_of_ge _ _ (by omega)]
    simp; omega

/-- A bit moved to bit `m` of a byte. -/
theorem getLsbD_bitAt_shiftLeft (b : Byte) (k : Nat) {m j : Nat} (hm : m < 8) (hj : j < 8) :
    (bitAt b k <<< m).getLsbD j = (decide (j = m) && b.getLsbD k) := by
  unfold bitAt
  interval_cases m <;> interval_cases j <;> simp

/-- A carry byte's bits (R65): bit `6 - k` is bit 7 of the group's byte `k`, and bit 7 is 0. -/
theorem getLsbD_carryByte (src : List Byte) (g j : Nat) :
    (carryByte src g).getLsbD j =
      (decide (j < 7) && (src.getD (7 * g + (6 - j)) 0).getLsbD 7) := by
  have hr : List.range 7 = [0, 1, 2, 3, 4, 5, 6] := by decide
  by_cases hj : j < 8
  · simp only [carryByte, hr, List.foldl, carrySlot, BitVec.getLsbD_or]
    rw [getLsbD_bitAt_shiftLeft _ _ (by omega) hj, getLsbD_bitAt_shiftLeft _ _ (by omega) hj,
      getLsbD_bitAt_shiftLeft _ _ (by omega) hj, getLsbD_bitAt_shiftLeft _ _ (by omega) hj,
      getLsbD_bitAt_shiftLeft _ _ (by omega) hj, getLsbD_bitAt_shiftLeft _ _ (by omega) hj,
      getLsbD_bitAt_shiftLeft _ _ (by omega) hj]
    interval_cases j <;> simp
  · rw [BitVec.getLsbD_of_ge _ _ (by omega)]
    simp; omega

/-- A reassembled source byte's bits (R66). -/
theorem getLsbD_sourceByte (p : List Byte) (i j : Nat) :
    (sourceByte p i).getLsbD j =
      if j = 7 then (p.getD (8 * (i / 7)) 0).getLsbD (carrySlot (i % 7))
      else decide (j < 7) && (p.getD (8 * (i / 7) + 1 + i % 7) 0).getLsbD j := by
  by_cases hj : j < 8
  · rw [sourceByte, BitVec.getLsbD_or, getLsbD_lowBits, getLsbD_bitAt_shiftLeft _ _ (by omega) hj]
    by_cases h7 : j = 7
    · simp [h7]
    · simp [h7]
  · rw [BitVec.getLsbD_of_ge _ _ (by omega)]
    have h7 : j ≠ 7 := by omega
    have h8 : ¬ j < 7 := by omega
    simp [h7, h8]

@[simp] theorem length_encodeBytes (src : List Byte) :
    (encodeBytes src).length = plen src.length := by simp [encodeBytes]

theorem getElem?_encodeBytes (src : List Byte) {j : Nat} (hj : j < plen src.length) :
    (encodeBytes src)[j]? = some (packedByte src j) := by simp [encodeBytes, hj]

theorem getD_encodeBytes (src : List Byte) {j : Nat} (hj : j < plen src.length) :
    (encodeBytes src).getD j 0 = packedByte src j := by
  rw [List.getD_eq_getElem?_getD, getElem?_encodeBytes src hj]; rfl

/-- A packed byte at a carry position. -/
theorem packedByte_carry (src : List Byte) (g : Nat) : packedByte src (8 * g) = carryByte src g := by
  rw [packedByte, if_pos (by omega), Nat.mul_div_cancel_left g (by omega)]

/-- A packed byte at a data position (R63). -/
theorem packedByte_data (src : List Byte) (i : Nat) :
    packedByte src (8 * (i / 7) + 1 + i % 7) = lowBits (src.getD i 0) := by
  have h1 : (8 * (i / 7) + 1 + i % 7) % 8 = 1 + i % 7 := by omega
  have h2 : (8 * (i / 7) + 1 + i % 7) / 8 = i / 7 := by omega
  rw [packedByte, if_neg (by omega), h1, h2, show 7 * (i / 7) + (1 + i % 7 - 1) = i by omega]

/-- Every packed byte has bit 7 clear (R92). -/
theorem bit7_packedByte (src : List Byte) (j : Nat) : bit7 (packedByte src j) = false := by
  rw [packedByte, bit7_eq]
  split
  · rw [getLsbD_carryByte]; simp
  · rw [getLsbD_lowBits]; simp

@[simp] theorem sevenBitSafe_encodeBytes (src : List Byte) : sevenBitSafe (encodeBytes src) = true := by
  simp [sevenBitSafe, encodeBytes, bit7_packedByte]

/-- The packed indices of a source byte lie in the packet (R44). -/
theorem dataIndex_lt_plen {i n : Nat} (h : i < n) : 8 * (i / 7) + 1 + i % 7 < plen n := by
  unfold plen ceil7; omega

theorem carryIndex_lt_plen {i n : Nat} (h : i < n) : 8 * (i / 7) < plen n := by
  unfold plen ceil7; omega

/-- Every way `decodeBytes` answers. -/
theorem decodeBytes_ok_iff (P : Params) (p : List Byte) (n : Nat) (out : List Byte) :
    decodeBytes P p n = .ok out ↔
      p.length = plen n ∧ sevenBitSafe p = true ∧ (P.strictCarry = true → canonical p n = true) ∧
        out = (List.range n).map (sourceByte p) := by
  unfold decodeBytes
  split
  · simp_all
  · split
    · simp_all
    · split
      · simp_all
      · simp_all
        constructor <;> intro h <;> exact h.symm

/-- The only error of `decodeBytes`. -/
theorem decodeBytes_error (P : Params) (p : List Byte) (n : Nat) (e : Err) :
    decodeBytes P p n = .error e → e = .malformedPacket := by
  unfold decodeBytes
  repeat (first | split | simp_all)

end Sys2Proof.Machine
end

