-- ==== Sys2Proof/Laws/Decode.lean ====
section
/-!
SUPPORT. The decoder: what it reads from a frame and from a packet that the encoder lays out, and the byte forms of
presented transactions.
-/
namespace Sys2Proof
open Sys2Proof.Machine

@[simp] theorem bit0_boolByte (v : Bool) : bit0 (boolByte v) = v := by cases v <;> rfl

@[simp] theorem directionOf_boolByte (dir : Direction) :
    directionOf (boolByte (dir = .response)) = dir := by cases dir <;> rfl

@[simp] theorem map_lowSeptet_map_septetByte (p : List Septet) :
    (p.map septetByte).map lowSeptet = p := by
  simp [Function.comp_def]

/-- A frame laid out from its fields splits into them. -/
theorem splitFrame_frame (m o d c : Byte) (p : List Septet) :
    splitFrame (0xF0 :: m :: o :: d :: c :: (p.map septetByte ++ [0xF7])) = some (m, o, d, c, p) := by
  simp [splitFrame, Function.comp_def]

theorem frameInstr_frame (m o d c : Byte) (p : List Septet) :
    frameInstr (0xF0 :: m :: o :: d :: c :: (p.map septetByte ++ [0xF7])) = frameRow m o d c p := by
  rw [frameInstr, splitFrame_frame]

/-- A frame of no row of the protocol is a generic frame. -/
theorem frameRow_generic (m o d c : Byte) (p : List Septet) (h : isProtocolFrame c p.length = false) :
    frameRow m o d c p = .frameGeneric m o d c p := by
  simp only [isProtocolFrame, Bool.or_eq_false_iff, Bool.and_eq_false_iff, decide_eq_false_iff_not] at h
  obtain ⟨⟨⟨h1, h2⟩, h3⟩, h4⟩ := h
  unfold frameRow
  rw [if_neg (by tauto), if_neg (by tauto), if_neg (by tauto), if_neg (by tauto)]
  split
  · match p, h4 with
    | [], _ => rfl
    | [x], h4 => simp_all
    | _ :: _ :: _, _ => rfl
  · rfl

/-- A packet with a payload byte singled out, read back. -/
theorem packedInstr_packet (n : Byte) (before after : List Byte) (x : Septet) :
    packedInstr n (before ++ septetByte x :: after) before.length =
      if before.length % 8 = 0 then .packedCarryByte n before x after
      else .packedDataByte n before x after := by
  have hd : (before ++ septetByte x :: after).drop (before.length + 1) = after := by
    rw [List.drop_append]; simp
  simp [packedInstr, hd]

/-- A presented transaction whose lengths fit the fields of its byte form. -/
def Presented.fits : Presented → Prop
  | .request r => r.inp.length < 32
  | .frame _ => True
  | .packed _ packet idx => idx < packet.length ∧ packet.length < 32

/-- Reading back the byte form (log entry 6). -/
theorem ofBytes_toBytes (p : Presented) (h : p.fits) :
    Presented.ofBytes p.toBytes.1 p.toBytes.2 = .ok p := by
  cases p with
  | request r =>
    have h' : r.inp.length < 32 := h
    have h1 : ¬ 16 ≤ (r.opsel.setWidth 8).toNat := by
      have := r.opsel.isLt
      simp only [BitVec.toNat_setWidth]; omega
    have h2 : (BitVec.ofNat 8 r.inp.length).toNat = r.inp.length := by
      simp only [BitVec.toNat_ofNat]; omega
    have h3 : (r.opsel.setWidth 8).setWidth 4 = r.opsel := by
      apply BitVec.eq_of_toNat_eq
      have := r.opsel.isLt
      simp only [BitVec.toNat_setWidth]; omega
    simp only [Presented.toBytes, Presented.ofBytes, h1, h2, h3, if_false]
    rw [if_neg (by omega), if_neg (by simp)]
  | frame bytes => rfl
  | packed n packet idx =>
    obtain ⟨hi, hl⟩ := h
    have h2 : (BitVec.ofNat 8 idx).toNat = idx := by
      simp only [BitVec.toNat_ofNat]; omega
    have htake : (packet.take idx ++ packet.drop (idx + 1)).take idx = packet.take idx := by
      rw [List.take_append_of_le_length (by simp; omega), List.take_take, Nat.min_self]
    have hdrop : (packet.take idx ++ packet.drop (idx + 1)).drop idx = packet.drop (idx + 1) := by
      rw [List.drop_append_of_le_length (by simp; omega), List.drop_take]; simp
    have hget : packet.getD idx 0 = packet[idx] := by
      simp [List.getD_eq_getElem?_getD, hi]
    simp only [Presented.toBytes, Presented.ofBytes, h2, htake, hdrop, hget]
    rw [if_neg (by simp; omega), List.getElem_cons_drop hi, List.take_append_drop]

end Sys2Proof
end

