-- ==== Sys2Proof/Laws/Frame.lean ====
section
/-!
SUPPORT. The frame: its length, its bytes by position, and what `parseFrame` answers (R60, R134, R137).
-/
namespace Sys2Proof.Machine

@[simp] theorem length_buildFrame (m : Message) : (buildFrame m).length = m.payload.length + 6 := by
  simp [buildFrame]

@[simp] theorem framePayload_buildFrame (m : Message) : framePayload (buildFrame m) = m.payload := by
  simp [framePayload, buildFrame]

/-- Building then parsing gives the message back when its payload is 7-bit-safe (R137). -/
theorem parseFrame_buildFrame (m : Message) (h : sevenBitSafe m.payload = true) :
    parseFrame (buildFrame m) = some m := by
  have hlast : (buildFrame m).getD ((buildFrame m).length - 1) 0 = 0xF7 := by
    simp [buildFrame, List.getD_eq_getElem?_getD]
  unfold parseFrame
  rw [framePayload_buildFrame, hlast]
  simp [h]
  simp [buildFrame]

/-- A frame of length 6 or more with its delimiters is its header, its payload and the end delimiter. -/
theorem frame_eq_of_delimiters {s : List Byte} (h6 : 6 ≤ s.length) (h0 : s.getD 0 0 = 0xF0)
    (hl : s.getD (s.length - 1) 0 = 0xF7) :
    s = [0xF0, s.getD 1 0, s.getD 2 0, s.getD 3 0, s.getD 4 0] ++ framePayload s ++ [0xF7] := by
  match s, h6 with
  | a :: b :: c :: d :: e :: rest, h6 =>
    have hne : rest ≠ [] := by
      rintro rfl; simp at h6
    obtain ⟨body, x, rfl⟩ : ∃ body x, rest = body ++ [x] :=
      ⟨rest.dropLast, rest.getLast hne, (List.dropLast_append_getLast hne).symm⟩
    have hx : x = 0xF7 := by
      simpa [List.getD_eq_getElem?_getD] using hl
    have ha : a = 0xF0 := by simpa using h0
    simp [framePayload, ha, hx]

/-- Everything `parseFrame` accepts (R134). -/
theorem parseFrame_eq_some_iff (s : List Byte) (m : Message) :
    parseFrame s = some m ↔ s = buildFrame m ∧ sevenBitSafe m.payload = true := by
  constructor
  · intro h
    unfold parseFrame at h
    split at h
    · cases h
    · split at h
      · cases h
      · split at h
        · cases h
        · split at h
          · cases h
          · rename_i h6 h0 hl hs
            cases h
            refine ⟨?_, by simpa using hs⟩
            simpa [buildFrame] using
              frame_eq_of_delimiters (by omega) (by simpa using h0) (by simpa using hl)
  · rintro ⟨rfl, h⟩
    exact parseFrame_buildFrame m h

end Sys2Proof.Machine
end

