-- ==== Sys2Proof/Laws/Grid.lean ====
section
/-!
SUPPORT. The grid by its cells: reading a cell of each grid that an operation makes, two grids with equal cells are
equal, and the mask view is the grid's cells (R22, R116).
-/
namespace Sys2Proof.Machine

@[simp] theorem cell_ofCells (f : Fin 8 → Fin 17 → Bool) (o : Fin 8) (d : Fin 17) :
    (Grid.ofCells f).cell o d = f o d := by
  simp [Grid.cell, Grid.ofCells, Vector.get_eq_getElem]

@[simp] theorem cell_empty (o : Fin 8) (d : Fin 17) : Grid.empty.cell o d = false := by
  simp [Grid.cell, Grid.empty, Vector.get_eq_getElem]

theorem grid_ext {g h : Grid} (hc : ∀ o d, g.cell o d = h.cell o d) : g = h := by
  apply Vector.ext
  intro o ho
  apply Vector.ext
  intro d hd
  simpa [Grid.cell, Vector.get_eq_getElem] using hc ⟨o, ho⟩ ⟨d, hd⟩

@[simp] theorem ofCells_cell (g : Grid) : Grid.ofCells g.cell = g :=
  grid_ext fun o d => cell_ofCells g.cell o d

@[simp] theorem cell_setCell (g : Grid) (o : Fin 8) (d : Fin 17) (v : Bool) (o' : Fin 8) (d' : Fin 17) :
    (g.setCell o d v).cell o' d' = if o' = o ∧ d' = d then v else g.cell o' d' :=
  cell_ofCells _ o' d'

@[simp] theorem cell_setRow (g : Grid) (o : Fin 8) (v : Bool) (o' : Fin 8) (d' : Fin 17) :
    (g.setRow o v).cell o' d' = if o' = o then v else g.cell o' d' :=
  cell_ofCells _ o' d'

@[simp] theorem cell_fromMasks (masks : List Byte) (o : Fin 8) (d : Fin 17) :
    (fromMasks masks).cell o d = (masks.getD d.val 0).getLsbD o.val :=
  cell_ofCells _ o d

/-- Bit `o` of a channel mask is the cell (R22). -/
theorem getLsbD_channelMask (g : Grid) (d : Fin 17) (o : Fin 8) :
    (channelMask g d).getLsbD o.val = g.cell o d := by
  have h8 : List.finRange 8 = [0, 1, 2, 3, 4, 5, 6, 7] := by decide
  have key : ∀ c0 c1 c2 c3 c4 c5 c6 c7 : Bool, ∀ o : Fin 8,
      ((List.finRange 8).foldl (fun (m : Byte) (o : Fin 8) =>
        if (fun i : Fin 8 => [c0, c1, c2, c3, c4, c5, c6, c7].getD i.val false) o
          then m ||| (0x01#8 <<< o.val) else m) 0).getLsbD o.val
        = [c0, c1, c2, c3, c4, c5, c6, c7].getD o.val false := by
    rw [h8]; decide
  have hc : (fun i : Fin 8 => [g.cell 0 d, g.cell 1 d, g.cell 2 d, g.cell 3 d, g.cell 4 d, g.cell 5 d,
      g.cell 6 d, g.cell 7 d].getD i.val false) = fun i => g.cell i d := by
    funext i; fin_cases i <;> rfl
  have := key (g.cell 0 d) (g.cell 1 d) (g.cell 2 d) (g.cell 3 d) (g.cell 4 d) (g.cell 5 d)
    (g.cell 6 d) (g.cell 7 d) o
  rw [hc] at this
  rw [channelMask, this]
  exact congrFun hc o

@[simp] theorem length_toMasks (g : Grid) : (toMasks g).length = 17 := by simp [toMasks]

theorem getD_toMasks (g : Grid) (d : Fin 17) : (toMasks g).getD d.val 0 = channelMask g d := by
  simp [toMasks, List.getD_eq_getElem?_getD]

@[simp] theorem fromMasks_toMasks (g : Grid) : fromMasks (toMasks g) = g :=
  grid_ext fun o d => by rw [cell_fromMasks, getD_toMasks, getLsbD_channelMask]

end Sys2Proof.Machine
end

