-- ==== Sys2Proof/Laws/State.lean ====
section
/-!
SUPPORT. One lemma per field per update of the state, and the ends of an operation as equations.
-/
namespace Sys2Proof.Machine

variable (s : State) (r : Response) (g : Grid) (l : List HostEvent) (e : Err)

@[simp] theorem respond_grid : (s.respond r).grid = s.grid := rfl
@[simp] theorem respond_inputs : (s.respond r).inputs = s.inputs := rfl
@[simp] theorem respond_responses : (s.respond r).responses = s.responses ++ [r] := rfl
@[simp] theorem respond_violated : (s.respond r).violated = (s.violated || r.isViolation) := rfl

@[simp] theorem setGrid_grid : (s.setGrid g).grid = g := rfl
@[simp] theorem setGrid_inputs : (s.setGrid g).inputs = s.inputs := rfl
@[simp] theorem setGrid_responses : (s.setGrid g).responses = s.responses := rfl
@[simp] theorem setGrid_violated : (s.setGrid g).violated = s.violated := rfl

@[simp] theorem setInputs_grid : (s.setInputs l).grid = s.grid := rfl
@[simp] theorem setInputs_inputs : (s.setInputs l).inputs = l := rfl
@[simp] theorem setInputs_responses : (s.setInputs l).responses = s.responses := rfl
@[simp] theorem setInputs_violated : (s.setInputs l).violated = s.violated := rfl

@[simp] theorem assertReset_grid : s.assertReset.grid = Grid.empty := rfl
@[simp] theorem assertReset_inputs : s.assertReset.inputs = s.inputs := rfl
@[simp] theorem assertReset_responses : s.assertReset.responses = s.responses := rfl
@[simp] theorem assertReset_violated : s.assertReset.violated = s.violated := rfl

@[simp] theorem answered_grid : (s.answered g r).grid = g := rfl
@[simp] theorem answered_inputs : (s.answered g r).inputs = s.inputs := rfl
@[simp] theorem answered_responses : (s.answered g r).responses = s.responses ++ [r] := rfl
@[simp] theorem answered_violated :
    (s.answered g r).violated = (s.violated || decide (r.err = .error .contractViolation)) := rfl

@[simp] theorem ok_err (p : Reply) : (Response.ok p).err = .ok := rfl
@[simp] theorem ok_eq (p : Reply) : Response.ok p = okResponse p.r0 p.r1 p.r2 p.r3 p.out := rfl
@[simp] theorem okResponse_err (a b c d : Byte) (out : List Byte) :
    (okResponse a b c d out).err = .ok := rfl
@[simp] theorem okResponse_out (a b c d : Byte) (out : List Byte) :
    (okResponse a b c d out).out = out := rfl
@[simp] theorem errorResponse_err : (errorResponse e).err = .error e := rfl
@[simp] theorem errorResponse_out : (errorResponse e).out = [] := rfl
theorem error_eq : Response.error e = errorResponse e := rfl

/-- An operation that writes nothing and succeeds. -/
@[simp] theorem answer_ok (p : Reply) :
    s.answer (.ok p) = .next (s.answered s.grid (okResponse p.r0 p.r1 p.r2 p.r3 p.out)) := rfl

/-- An operation that writes nothing and fails. -/
@[simp] theorem answer_error :
    s.answer (.error e) = .next (s.answered s.grid (errorResponse e)) := rfl

/-- An operation that writes the grid and succeeds. -/
@[simp] theorem commit_ok : s.commit (.ok g) = .next (s.answered g (okResponse 0 0 0 0 [])) := rfl

/-- An operation that writes the grid and fails. -/
@[simp] theorem commit_error :
    s.commit (.error e) = .next (s.answered s.grid (errorResponse e)) := rfl

/-- Everything `answer` can do. -/
theorem answer_cases (x : Except Err Reply) :
    (∃ p, x = .ok p ∧ s.answer x = .next (s.answered s.grid (okResponse p.r0 p.r1 p.r2 p.r3 p.out))) ∨
      ∃ e, x = .error e ∧ s.answer x = .next (s.answered s.grid (errorResponse e)) := by
  cases x with
  | ok p => exact .inl ⟨p, rfl, rfl⟩
  | error e => exact .inr ⟨e, rfl, rfl⟩

/-- Everything `commit` can do. -/
theorem commit_cases (x : Except Err Grid) :
    (∃ g, x = .ok g ∧ s.commit x = .next (s.answered g (okResponse 0 0 0 0 []))) ∨
      ∃ e, x = .error e ∧ s.commit x = .next (s.answered s.grid (errorResponse e)) := by
  cases x with
  | ok g => exact .inl ⟨g, rfl, rfl⟩
  | error e => exact .inr ⟨e, rfl, rfl⟩

end Sys2Proof.Machine
end

