-- ==== Sys2Proof/Laws/Exec.lean ====
section
/-!
SUPPORT. What `exec` and `step` can do, said once. `result i g` is the grid and the response of an instruction on a
grid; `exec` is that and nothing else, so every rule about what a transaction depends on or leaves alone follows.
-/
namespace Sys2Proof.Machine

/-- The end of an operation that writes no state. -/
def readResult (g : Grid) : Except Err Reply → Grid × Response
  | .ok p => (g, okResponse p.r0 p.r1 p.r2 p.r3 p.out)
  | .error e => (g, errorResponse e)

/-- The end of an operation that writes the grid. -/
def writeResult (g : Grid) : Except Err Grid → Grid × Response
  | .ok g' => (g', okResponse 0 0 0 0 [])
  | .error e => (g, errorResponse e)

theorem answer_eq (s : State) (x : Except Err Reply) :
    s.answer x = .next (s.answered (readResult s.grid x).1 (readResult s.grid x).2) := by
  cases x <;> rfl

theorem commit_eq (s : State) (x : Except Err Grid) :
    s.commit x = .next (s.answered (writeResult s.grid x).1 (writeResult s.grid x).2) := by
  cases x <;> rfl

/-- The grid and the response of an instruction on a grid. -/
def result (i : Instr) (g : Grid) : Grid × Response :=
  match i with
  | .reserved0 => readResult g (.error .contractViolation)
  | .encode src => readResult g (opEncode Config.params src)
  | .decode n packet => readResult g (opDecode Config.params n packet)
  | .tClear => writeResult g (.ok (Grid.ofCells fun _ _ => false))
  | .tSet o d v => writeResult g (opSet o d v g)
  | .tSetRow o v => writeResult g (opSetRow o v g)
  | .tMask d => readResult g (opMask d g)
  | .tToMasks => readResult g (.ok { out := toMasks g })
  | .tFromMasks masks => writeResult g (opFromMasks masks)
  | .fBuild m o d c payload => readResult g (opBuild Config.params ⟨m, o, d, c, payload⟩)
  | .fParse frame => readResult g (opParse Config.params frame)
  | .pCheck c len dir => readResult g (opCheck Config.params c len dir)
  | .encodeTable => readResult g (.ok { out := encodeBytes (toMasks g) })
  | .decodeTable payload => writeResult g (opDecodeTable Config.params payload)
  | .buildRequest c d payload => readResult g (opBuildRequest Config.params c d payload)
  | .parseResponse frame => readResult g (opParseResponse Config.params frame)
  | .pingRequest m o d => readResult g (opParseResponse Config.params (buildFrame ⟨m, o, d, 0x01, []⟩))
  | .readConfigRequest m o d =>
    readResult g (opParseResponse Config.params (buildFrame ⟨m, o, d, 0x02, []⟩))
  | .readConfigResponse m o d p =>
    readResult g (opParseResponse Config.params (buildFrame ⟨m, o, d, 0x02, p.map septetByte⟩))
  | .writeConfigRequest m o d p =>
    readResult g (opParseResponse Config.params (buildFrame ⟨m, o, d, 0x03, p.map septetByte⟩))
  | .changeDeviceIdRequest m o d x =>
    readResult g (opParseResponse Config.params (buildFrame ⟨m, o, d, 0x04, [septetByte x]⟩))
  | .frameGeneric m o d c p =>
    readResult g (opParse Config.params (buildFrame ⟨m, o, d, c, p.map septetByte⟩))
  | .packedCarryByte n before slots after =>
    readResult g (opDecode Config.params n (before ++ septetByte slots :: after))
  | .packedDataByte n before low after =>
    readResult g (opDecode Config.params n (before ++ septetByte low :: after))

/-- Everything `exec` does. -/
theorem exec_eq (i : Instr) (s : State) :
    exec i s = .next (s.answered (result i s.grid).1 (result i s.grid).2) := by
  cases i with
  | pingRequest m o d => exact answer_eq s (opParseResponse Config.params (buildFrame ⟨m, o, d, 0x01, []⟩))
  | readConfigRequest m o d =>
    exact answer_eq s (opParseResponse Config.params (buildFrame ⟨m, o, d, 0x02, []⟩))
  | _ => first | exact answer_eq s _ | exact commit_eq s _ | rfl

/-- Everything `step` does. -/
theorem step_cases (s : State) :
    (s.inputs = [] ∧ step s = .next s) ∨
      (∃ rest, s.inputs = .reset :: rest ∧ step s = .next (s.setInputs rest).assertReset) ∨
      ∃ p rest, s.inputs = .present p :: rest ∧
        step s = .next ((s.setInputs rest).answered (result p.instr s.grid).1 (result p.instr s.grid).2) := by
  cases h : s.inputs with
  | nil => exact .inl ⟨rfl, by simp [step, h]⟩
  | cons x rest =>
    cases x with
    | reset => exact .inr (.inl ⟨rest, rfl, by simp [step, h]⟩)
    | present p => exact .inr (.inr ⟨p, rest, rfl, by simp [step, h, exec_eq]⟩)

/-- A result with an error code carries nothing else and leaves the grid as it was (R197). -/
theorem readResult_error {g : Grid} {x : Except Err Reply} {e : Err}
    (h : (readResult g x).2.err = .error e) :
    (readResult g x).2 = errorResponse e ∧ (readResult g x).1 = g := by
  cases x with
  | ok p => simp [readResult] at h
  | error e' => simp only [readResult, errorResponse_err, ErrCode.error.injEq] at h; simp [readResult, h]

theorem writeResult_error {g : Grid} {x : Except Err Grid} {e : Err}
    (h : (writeResult g x).2.err = .error e) :
    (writeResult g x).2 = errorResponse e ∧ (writeResult g x).1 = g := by
  cases x with
  | ok p => simp [writeResult] at h
  | error e' => simp only [writeResult, errorResponse_err, ErrCode.error.injEq] at h; simp [writeResult, h]

/-- `isFrame` is what `parseFrame` accepts (R134). -/
theorem isFrame_iff (f : List Byte) : isFrame f ↔ ∃ m, f = buildFrame m ∧ sevenBitSafe m.payload = true := by
  constructor
  · rintro ⟨h6, h0, hl, hp⟩
    have he := frame_eq_of_delimiters h6 h0 hl
    refine ⟨⟨f.getD 1 0, f.getD 2 0, f.getD 3 0, f.getD 4 0, framePayload f⟩, he, ?_⟩
    rw [sevenBitSafe_iff]
    intro b hb
    obtain ⟨k, hk, rfl⟩ := List.getElem_of_mem hb
    have hlen : k < f.length - 6 := by
      simp only [framePayload, List.length_take, List.length_drop] at hk; omega
    have hk' := hp (k + 5) (by omega) (by omega)
    have hget : (framePayload f)[k] = f.getD (k + 5) 0 := by
      simp [framePayload, List.getD_eq_getElem?_getD, show k + 5 < f.length by omega, Nat.add_comm]
    rw [hget]; exact hk'
  · rintro ⟨m, rfl, h⟩
    rw [sevenBitSafe_iff] at h
    refine ⟨by simp, by simp [buildFrame], by simp [buildFrame, List.getD_eq_getElem?_getD], ?_⟩
    intro j h5 hj
    simp only [length_buildFrame] at hj
    obtain ⟨k, rfl⟩ : ∃ k, j = k + 5 := ⟨j - 5, by omega⟩
    have hk : k < m.payload.length := by omega
    have hget : (buildFrame m).getD (k + 5) 0 = m.payload[k] := by
      simp [buildFrame, List.getD_eq_getElem?_getD, List.getElem?_append, hk]
    rw [hget]; exact h _ (List.getElem_mem hk)

/-- The fields of a frame by position. -/
theorem parseFrame_of_isFrame {f : List Byte} (h : isFrame f) :
    parseFrame f = some ⟨f.getD 1 0, f.getD 2 0, f.getD 3 0, f.getD 4 0, framePayload f⟩ := by
  obtain ⟨m, rfl, hm⟩ := (isFrame_iff f).1 h
  rw [parseFrame_buildFrame m hm, framePayload_buildFrame]
  simp [buildFrame]

theorem parseFrame_of_not_isFrame {f : List Byte} (h : ¬ isFrame f) : parseFrame f = none := by
  rw [Option.eq_none_iff_forall_ne_some]
  intro m hm
  exact h ((isFrame_iff f).2 ⟨m, (parseFrame_eq_some_iff f m).1 hm⟩)

end Sys2Proof.Machine
end

