-- ==== Sys2Proof/Laws/Operands.lean ====
section
/-!
SUPPORT. The operand tests as propositions: the capacity at the default parameters, the index ranges, the codeset, the
catalogue's lengths.
-/
namespace Sys2Proof.Machine

@[simp] theorem overCapacity_params (n : Nat) : overCapacity Config.params n = decide (26 < n) := rfl

@[simp] theorem strictCarry_params : Config.params.strictCarry = false := rfl

theorem outputIndex_of_lt {b : Byte} (h : b.toNat < 8) : outputIndex b = some ⟨b.toNat, h⟩ := dif_pos h

theorem outputIndex_of_le {b : Byte} (h : 8 ≤ b.toNat) : outputIndex b = none := dif_neg (by omega)

theorem destinationIndex_of_lt {b : Byte} (h : b.toNat < 17) :
    destinationIndex b = some ⟨b.toNat, h⟩ := dif_pos h

theorem destinationIndex_of_le {b : Byte} (h : 17 ≤ b.toNat) : destinationIndex b = none :=
  dif_neg (by omega)

theorem isCommand_iff (c : Byte) : isCommand c = true ↔ c ∈ commandBytes := by
  simp [isCommand, commandBytes, or_assoc]

/-- The request rule on the codeset (R62, R156). -/
theorem requestLengthOk_iff {c : Byte} (h : c ∈ commandBytes) (len : Nat) :
    requestLengthOk c len = true ↔ len = requestLength c := by
  simp only [commandBytes, List.mem_cons, List.not_mem_nil, or_false] at h
  rcases h with rfl | rfl | rfl | rfl <;> simp [requestLengthOk, requestLength]

/-- The response rule at the default parameters (R156). -/
theorem responseLengthOk_params (c : Byte) (len : Nat) :
    responseLengthOk Config.params c len = true ↔ (c = 0x02 → len = 20) := by
  unfold responseLengthOk
  split
  · simp_all
  · simp_all [Config.params]

end Sys2Proof.Machine
end

