-- ==== Sys2Proof/Laws/Ops.lean ====
section
/-!
SUPPORT. One lemma per shared operation that says everything it answers, at the default parameters: which operands are
which error, and what the rest are answered with.
-/
namespace Sys2Proof.Machine

/-! ### Answers -/

theorem next_inj {s t : State} :
    (Host.Outcome.next s : Host.Outcome State Fault Refusal) = .next t ↔ s = t :=
  ⟨fun h => by injection h, fun h => by rw [h]⟩

/-- Two answers to one state are equal exactly when the grid and the response are. -/
theorem answered_inj {s : State} {g g' : Grid} {r r' : Response} :
    s.answered g r = s.answered g' r' ↔ g = g' ∧ r = r' := by
  constructor
  · intro h
    have h1 := congrArg State.grid h
    have h2 := congrArg State.responses h
    simp at h1 h2
    exact ⟨h1, h2⟩
  · rintro ⟨rfl, rfl⟩; rfl

/-! ### The codec -/

theorem getD_map_range (f : Nat → Byte) {n i : Nat} (hi : i < n) :
    ((List.range n).map f).getD i 0 = f i := by
  simp [List.getD_eq_getElem?_getD, hi]

theorem isPacket_iff (p : List Byte) (n : Nat) :
    isPacket p n ↔ p.length = plen n ∧ sevenBitSafe p = true := by
  rw [isPacket, sevenBitSafe_iff]; rfl

theorem decodeBytes_of_isPacket {P : Params} (hP : P.strictCarry = false) {p : List Byte} {n : Nat}
    (h : isPacket p n) : decodeBytes P p n = .ok ((List.range n).map (sourceByte p)) := by
  rw [decodeBytes_ok_iff]
  rw [isPacket_iff] at h
  exact ⟨h.1, h.2, by simp [hP], rfl⟩

theorem decodeBytes_of_not_isPacket (P : Params) {p : List Byte} {n : Nat} (h : ¬ isPacket p n) :
    decodeBytes P p n = .error .malformedPacket := by
  rw [isPacket_iff] at h
  unfold decodeBytes
  by_cases h1 : p.length = plen n
  · have : sevenBitSafe p = false := by simpa [h1] using h
    simp [this]
  · simp [h1]

theorem canonical_iff (p : List Byte) (n : Nat) : canonical p n = true ↔ isCanonical p n := by
  simp only [canonical, List.all_eq_true, List.mem_range, Bool.or_eq_true, decide_eq_true_eq,
    Bool.not_eq_true', isCanonical, carrySlot]
  constructor
  · intro h g k hg hk hn
    have := h (7 * g + k) (by unfold ceil7; omega)
    rw [show (7 * g + k) / 7 = g by omega, show (7 * g + k) % 7 = k by omega] at this
    exact this.resolve_left (by omega)
  · intro h i hi
    by_cases hin : i < n
    · exact .inl hin
    · exact .inr (h (i / 7) (i % 7) (by unfold ceil7 at hi; omega) (by omega) (by omega))

/-- `ENCODE` (R91). -/
theorem opEncode_spec (src : List Byte) :
    opEncode Config.params src =
      if src.length ≤ 22 then .ok { out := encodeBytes src } else .error .contractViolation := by
  unfold opEncode
  simp only [overCapacity_params, plen, ceil7, decide_eq_true_eq]
  split
  · rw [if_neg (by omega)]
  · split
    · rw [if_neg (by omega)]
    · rw [if_pos (by omega)]

/-- `DECODE` (R95). -/
theorem opDecode_spec (n : Byte) (p : List Byte) :
    (27 ≤ p.length → opDecode Config.params n p = .error .contractViolation) ∧
    (p.length ≤ 26 → ¬ isPacket p n.toNat → opDecode Config.params n p = .error .malformedPacket) ∧
    (p.length ≤ 26 → isPacket p n.toNat →
      opDecode Config.params n p = .ok { out := (List.range n.toNat).map (sourceByte p) }) := by
  refine ⟨fun h => ?_, fun h hp => ?_, fun h hp => ?_⟩
  · simp [opDecode, show 26 < p.length by omega]
  · simp [opDecode, show ¬ 26 < p.length by omega, decodeBytes_of_not_isPacket _ hp, Except.map]
  · simp [opDecode, show ¬ 26 < p.length by omega, decodeBytes_of_isPacket strictCarry_params hp, Except.map]

/-! ### The routing table -/

theorem toMasks_fromMasks {m : List Byte} (h : m.length = 17) : toMasks (fromMasks m) = m := by
  apply List.ext_getElem (by simp [h])
  intro i h1 h2
  have h17 : i < 17 := by simpa using h1
  rw [(List.getD_eq_getElem _ 0 h1).symm, (List.getD_eq_getElem _ 0 h2).symm]
  have hm := getD_toMasks (fromMasks m) ⟨i, h17⟩
  simp only at hm
  rw [hm]
  apply BitVec.eq_of_getLsbD_eq
  intro j hj
  have hb := getLsbD_channelMask (fromMasks m) ⟨i, h17⟩ ⟨j, hj⟩
  simp only at hb
  rw [hb, cell_fromMasks]

/-- `T_SET` (R111). -/
theorem opSet_spec (a b : Byte) (v : Bool) (g : Grid) :
    (∀ (ha : a.toNat < 8) (hb : b.toNat < 17),
      opSet a b v g = .ok (g.setCell ⟨a.toNat, ha⟩ ⟨b.toNat, hb⟩ v)) ∧
    (8 ≤ a.toNat ∨ 17 ≤ b.toNat → opSet a b v g = .error .invalidIndex) := by
  refine ⟨fun ha hb => ?_, fun h => ?_⟩
  · simp [opSet, outputIndex_of_lt ha, destinationIndex_of_lt hb]
  · unfold opSet
    rcases h with h | h
    · simp [outputIndex_of_le h]
    · rw [destinationIndex_of_le h]; split <;> simp_all

/-- `T_SET_ROW` (R112). -/
theorem opSetRow_spec (a : Byte) (v : Bool) (g : Grid) :
    (∀ ha : a.toNat < 8, opSetRow a v g = .ok (g.setRow ⟨a.toNat, ha⟩ v)) ∧
    (8 ≤ a.toNat → opSetRow a v g = .error .invalidIndex) :=
  ⟨fun ha => by simp [opSetRow, outputIndex_of_lt ha], fun h => by simp [opSetRow, outputIndex_of_le h]⟩

/-- `T_MASK` (R113). -/
theorem opMask_spec (b : Byte) (g : Grid) :
    (∀ hb : b.toNat < 17, opMask b g = .ok { r0 := channelMask g ⟨b.toNat, hb⟩ }) ∧
    (17 ≤ b.toNat → opMask b g = .error .invalidIndex) :=
  ⟨fun hb => by simp [opMask, destinationIndex_of_lt hb], fun h => by simp [opMask, destinationIndex_of_le h]⟩

/-! ### The frame and the catalogue -/

/-- The payload of a frame by position. -/
theorem framePayload_spec (f : List Byte) :
    (framePayload f).length = f.length - 6 ∧
      ∀ j < f.length - 6, (framePayload f).getD j 0 = f.getD (5 + j) 0 := by
  refine ⟨by simp [framePayload]; omega, fun j hj => ?_⟩
  simp [framePayload, List.getD_eq_getElem?_getD, hj]

/-- `F_BUILD` (R131). -/
theorem opBuild_spec (m : Message) :
    (m.payload.length ≤ 20 → (∀ x ∈ m.payload, x.getLsbD 7 = false) →
      opBuild Config.params m = .ok { out := buildFrame m }) ∧
    (21 ≤ m.payload.length ∨ (∃ x ∈ m.payload, x.getLsbD 7 = true) →
      opBuild Config.params m = .error .contractViolation) := by
  constructor
  · intro h hs
    simp [opBuild, show ¬ 26 < m.payload.length by omega, show ¬ 26 < m.payload.length + 6 by omega,
      (sevenBitSafe_iff _).2 hs]
  · rintro (h | h)
    · simp only [opBuild, overCapacity_params, show 26 < m.payload.length + 6 by omega, decide_true, if_true]
      split <;> rfl
    · rw [← sevenBitSafe_eq_false_iff] at h
      simp only [opBuild, h]
      split
      · rfl
      · split <;> rfl

/-- `parse` behind the capacity test (R134). -/
theorem parseWithin_spec (f : List Byte) :
    (27 ≤ f.length → parseWithin Config.params f = .error .contractViolation) ∧
    (f.length ≤ 26 → ¬ isFrame f → parseWithin Config.params f = .error .frameError) ∧
    (f.length ≤ 26 → isFrame f → parseWithin Config.params f =
      .ok ⟨f.getD 1 0, f.getD 2 0, f.getD 3 0, f.getD 4 0, framePayload f⟩) := by
  refine ⟨fun h => ?_, fun h hf => ?_, fun h hf => ?_⟩
  · simp [parseWithin, show 26 < f.length by omega]
  · simp [parseWithin, show ¬ 26 < f.length by omega, parseFrame_of_not_isFrame hf]
  · simp only [parseWithin, overCapacity_params, show ¬ 26 < f.length by omega, parseFrame_of_isFrame hf]
    rfl

/-- `check` of a command of the codeset, and of any other (R156). -/
theorem checkCommand_spec (c : Byte) (len : Nat) (dir : Direction) :
    (c ∉ commandBytes → checkCommand Config.params c len dir = .error .unknownCommand) ∧
    (c ∈ commandBytes → checkCommand Config.params c len dir =
      if lengthOk Config.params c len dir then .ok () else .error .malformedPacket) := by
  refine ⟨fun h => ?_, fun h => ?_⟩
  · rw [← isCommand_iff] at h
    simp [checkCommand, h]
  · rw [← isCommand_iff] at h
    cases hl : lengthOk Config.params c len dir <;> simp [checkCommand, h, hl]

/-! ### The collaborator-facing operations -/

/-- `DECODE_TABLE` (R172). -/
theorem opDecodeTable_spec (p : List Byte) :
    (27 ≤ p.length → opDecodeTable Config.params p = .error .contractViolation) ∧
    (p.length ≤ 26 → ¬ isPacket p 17 → opDecodeTable Config.params p = .error .malformedPacket) ∧
    (isPacket p 17 →
      opDecodeTable Config.params p = .ok (fromMasks ((List.range 17).map (sourceByte p)))) := by
  refine ⟨fun h => ?_, fun h hp => ?_, fun hp => ?_⟩
  · simp [opDecodeTable, show 26 < p.length by omega]
  · simp [opDecodeTable, show ¬ 26 < p.length by omega, decodeBytes_of_not_isPacket _ hp, Except.map]
  · have : p.length = 20 := by have := hp.1; omega
    simp only [opDecodeTable, overCapacity_params, this, decodeBytes_of_isPacket strictCarry_params hp,
      Except.map]
    rfl

theorem requestLength_le (c : Byte) : requestLength c ≤ 20 := by
  unfold requestLength; split <;> (try split) <;> omega

/-- `BUILD_REQUEST` (R173). -/
theorem opBuildRequest_spec (c d : Byte) (p : List Byte) :
    (27 ≤ p.length → opBuildRequest Config.params c d p = .error .contractViolation) ∧
    (p.length ≤ 26 → c ∉ commandBytes → opBuildRequest Config.params c d p = .error .unknownCommand) ∧
    (p.length ≤ 26 → c ∈ commandBytes → p.length ≠ requestLength c →
      opBuildRequest Config.params c d p = .error .malformedPacket) ∧
    (c ∈ commandBytes → p.length = requestLength c → (∃ b ∈ p, b.getLsbD 7 = true) →
      opBuildRequest Config.params c d p = .error .contractViolation) ∧
    (c ∈ commandBytes → p.length = requestLength c → (∀ b ∈ p, b.getLsbD 7 = false) →
      opBuildRequest Config.params c d p =
        .ok { out := buildFrame ⟨Config.mfgId, Config.modelId, d, c, p⟩ }) := by
  have hlen := requestLength_le c
  refine ⟨fun h => ?_, fun h hc => ?_, fun h hc hl => ?_, fun hc hl hs => ?_, fun hc hl hs => ?_⟩
  · simp [opBuildRequest, show 26 < p.length by omega]
  · simp [opBuildRequest, show ¬ 26 < p.length by omega, (checkCommand_spec c p.length .request).1 hc]
  · have h' := mt (requestLengthOk_iff hc p.length).1 hl
    simp [opBuildRequest, show ¬ 26 < p.length by omega, (checkCommand_spec c p.length .request).2 hc,
      lengthOk, h']
  · have h' := (requestLengthOk_iff hc p.length).2 hl
    rw [← sevenBitSafe_eq_false_iff] at hs
    simp [opBuildRequest, show ¬ 26 < p.length by omega, (checkCommand_spec c p.length .request).2 hc,
      lengthOk, h', hs]
  · have h' := (requestLengthOk_iff hc p.length).2 hl
    rw [← sevenBitSafe_iff] at hs
    simp [opBuildRequest, show ¬ 26 < p.length by omega, (checkCommand_spec c p.length .request).2 hc,
      lengthOk, h', hs]
    rfl

/-- `PARSE_RESPONSE` (R174). -/
theorem opParseResponse_spec (f : List Byte) :
    (27 ≤ f.length → opParseResponse Config.params f = .error .contractViolation) ∧
    (f.length ≤ 26 → ¬ isFrame f → opParseResponse Config.params f = .error .frameError) ∧
    (f.length ≤ 26 → isFrame f → f.getD 4 0 ∉ commandBytes →
      opParseResponse Config.params f = .error .unknownCommand) ∧
    (f.length ≤ 26 → isFrame f → f.getD 4 0 ∈ commandBytes → opParseResponse Config.params f =
      .ok ⟨f.getD 1 0, f.getD 2 0, f.getD 3 0, f.getD 4 0, framePayload f⟩) := by
  obtain ⟨h1, h2, h3⟩ := parseWithin_spec f
  refine ⟨fun h => ?_, fun h hf => ?_, fun h hf hc => ?_, fun h hf hc => ?_⟩
  · simp [opParseResponse, h1 h]
  · simp [opParseResponse, h2 h hf]
  · rw [← isCommand_iff] at hc
    simp only [opParseResponse, h3 h hf, hc]; rfl
  · rw [← isCommand_iff] at hc
    simp only [opParseResponse, h3 h hf, hc]; rfl

end Sys2Proof.Machine
end

