-- ==== Sys2Proof/Laws/PerInstr.lean ====
section
/-!
SUPPORT. One lemma per instruction: what the encoder presents for a well-formed instruction is that instruction, and
its lengths fit the fields of the byte form.
-/
namespace Sys2Proof.Laws.PresentRoundTrip

/-- Presenting a well-formed instruction and reading what is presented gives the instruction back. -/
def Statement (i : Instr) : Prop := i.wellFormed = true → i.present.fits ∧ i.present.instr = i

theorem fits_of_fitsInLen {n : Nat} (h : fitsInLen n = true) : n < 32 := by simpa [fitsInLen] using h

theorem reserved0 : Statement .reserved0 := fun _ => ⟨Nat.succ_pos 31, rfl⟩

theorem encode (src : List Byte) : Statement (.encode src) := fun h => ⟨fits_of_fitsInLen h, rfl⟩

theorem decode (n : Byte) (packet : List Byte) : Statement (.decode n packet) :=
  fun h => ⟨fits_of_fitsInLen h, rfl⟩

theorem tClear : Statement .tClear := fun _ => ⟨Nat.succ_pos 31, rfl⟩

theorem tSet (output destination : Byte) (enabled : Bool) :
    Statement (.tSet output destination enabled) :=
  fun _ => ⟨Nat.succ_pos 31, congrArg (Instr.tSet output destination) (bit0_boolByte enabled)⟩

theorem tSetRow (output : Byte) (enabled : Bool) : Statement (.tSetRow output enabled) :=
  fun _ => ⟨Nat.succ_pos 31, congrArg (Instr.tSetRow output) (bit0_boolByte enabled)⟩

theorem tMask (destination : Byte) : Statement (.tMask destination) := fun _ => ⟨Nat.succ_pos 31, rfl⟩

theorem tToMasks : Statement .tToMasks := fun _ => ⟨Nat.succ_pos 31, rfl⟩

theorem tFromMasks (masks : List Byte) : Statement (.tFromMasks masks) :=
  fun h => ⟨fits_of_fitsInLen h, rfl⟩

theorem fBuild (m o d c : Byte) (payload : List Byte) : Statement (.fBuild m o d c payload) :=
  fun h => ⟨fits_of_fitsInLen h, rfl⟩

theorem fParse (frame : List Byte) : Statement (.fParse frame) := fun h => ⟨fits_of_fitsInLen h, rfl⟩

theorem pCheck (c len : Byte) (dir : Direction) : Statement (.pCheck c len dir) :=
  fun _ => ⟨Nat.succ_pos 31, congrArg (Instr.pCheck c len) (directionOf_boolByte dir)⟩

theorem encodeTable : Statement .encodeTable := fun _ => ⟨Nat.succ_pos 31, rfl⟩

theorem decodeTable (payload : List Byte) : Statement (.decodeTable payload) :=
  fun h => ⟨fits_of_fitsInLen h, rfl⟩

theorem buildRequest (c d : Byte) (payload : List Byte) : Statement (.buildRequest c d payload) :=
  fun h => ⟨fits_of_fitsInLen h, rfl⟩

theorem parseResponse (frame : List Byte) : Statement (.parseResponse frame) :=
  fun h => ⟨fits_of_fitsInLen h, rfl⟩

theorem pingRequest (m o d : Byte) : Statement (.pingRequest m o d) :=
  fun _ => ⟨trivial, frameInstr_frame m o d 0x01 []⟩

theorem readConfigRequest (m o d : Byte) : Statement (.readConfigRequest m o d) :=
  fun _ => ⟨trivial, frameInstr_frame m o d 0x02 []⟩

theorem readConfigResponse (m o d : Byte) (payload : List Septet) :
    Statement (.readConfigResponse m o d payload) := fun h =>
  have hp : payload.length = 20 := by simpa [Instr.wellFormed] using h
  ⟨trivial, (frameInstr_frame m o d 0x02 payload).trans (by simp [frameRow, hp])⟩

theorem writeConfigRequest (m o d : Byte) (payload : List Septet) :
    Statement (.writeConfigRequest m o d payload) := fun h =>
  have hp : payload.length = 20 := by simpa [Instr.wellFormed] using h
  ⟨trivial, (frameInstr_frame m o d 0x03 payload).trans (by simp [frameRow, hp])⟩

theorem changeDeviceIdRequest (m o d : Byte) (newId : Septet) :
    Statement (.changeDeviceIdRequest m o d newId) :=
  fun _ => ⟨trivial, frameInstr_frame m o d 0x04 [newId]⟩

theorem frameGeneric (m o d c : Byte) (payload : List Septet) :
    Statement (.frameGeneric m o d c payload) := fun h =>
  have hp : isProtocolFrame c payload.length = false := by
    simp only [Instr.wellFormed, Bool.and_eq_true, Bool.not_eq_true'] at h; exact h.2
  ⟨trivial, (frameInstr_frame m o d c payload).trans (frameRow_generic m o d c payload hp)⟩

theorem packedCarryByte (n : Byte) (before : List Byte) (slots : Septet) (after : List Byte) :
    Statement (.packedCarryByte n before slots after) := fun h => by
  simp only [Instr.wellFormed, Bool.and_eq_true, decide_eq_true_eq] at h
  have hl := fits_of_fitsInLen h.2
  refine ⟨⟨by simp, by simp; omega⟩, (packedInstr_packet n before after slots).trans (if_pos h.1)⟩

theorem packedDataByte (n : Byte) (before : List Byte) (low : Septet) (after : List Byte) :
    Statement (.packedDataByte n before low after) := fun h => by
  simp only [Instr.wellFormed, Bool.and_eq_true, decide_eq_true_eq] at h
  have hl := fits_of_fitsInLen h.2
  refine ⟨⟨by simp, by simp; omega⟩, (packedInstr_packet n before after low).trans (if_neg h.1)⟩

end Sys2Proof.Laws.PresentRoundTrip
end

