-- ==== Sys2Proof/Tests/Slice0.lean ====
section
/-!
SUPPORT. Tests on fixed values. Expected results are the spec's: the vectors V1 to V148 and programs P1 to P5 of
spec/95_test_vectors.md, or words written out bit by bit from spec/30_encoding.md. The last part shows, for each
obligation with hypotheses, values that meet them.
-/
namespace Sys2Proof.Tests
open Sys2Proof Sys2Proof.Machine

/-! ### Helpers -/

/-- `n` copies of a byte. -/
def rep (n : Nat) (b : Byte) : List Byte := List.replicate n b

/-- The state right after reset but for a grid with these masks. -/
def st (masks : List Byte) : State := State.reset.setGrid (fromMasks masks)

/-- The last response and the masks after an instruction. -/
def after (i : Instr) (s : State) : Option (Option Response × List Byte) :=
  match exec i s with
  | .next t => some (t.responses.getLast?, toMasks t.grid)
  | .fault _ => none
  | .refused _ => none

/-- The last response of an instruction on the empty grid. -/
def resp (i : Instr) : Option Response := (after i State.reset).bind Prod.fst

/-- What a decoder answers, an error as none. -/
def dec (f : Format) (bytes : List Byte) : Option Instr := (decode f bytes).toOption

/-! ### WellFormed refuses -/

theorem test_wf_in_len : (Instr.encode (rep 31 0)).wellFormed = true ∧
    (Instr.encode (rep 32 0)).wellFormed = false ∧ (Instr.decode 0 (rep 32 0)).wellFormed = false ∧
    (Instr.tFromMasks (rep 32 0)).wellFormed = false ∧ (Instr.fBuild 0 0 0 0 (rep 32 0)).wellFormed = false ∧
    (Instr.fParse (rep 32 0)).wellFormed = false ∧ (Instr.decodeTable (rep 32 0)).wellFormed = false ∧
    (Instr.buildRequest 0 0 (rep 32 0)).wellFormed = false ∧
    (Instr.parseResponse (rep 32 0)).wellFormed = false := by decide

theorem test_wf_config_payload :
    (Instr.readConfigResponse 0 0 0 (List.replicate 19 0)).wellFormed = false ∧
    (Instr.writeConfigRequest 0 0 0 (List.replicate 21 0)).wellFormed = false ∧
    (Instr.writeConfigRequest 0 0 0 (List.replicate 20 0)).wellFormed = true := by decide

/-- A frame with a protocol command and that command's payload length is no generic frame (R62). -/
theorem test_wf_generic : (Instr.frameGeneric 0 0 0 0x01 []).wellFormed = false ∧
    (Instr.frameGeneric 0 0 0 0x01 [0]).wellFormed = true ∧
    (Instr.frameGeneric 0 0 0 0x02 (List.replicate 20 0)).wellFormed = false ∧
    (Instr.frameGeneric 0 0 0 0x03 (List.replicate 20 0)).wellFormed = false ∧
    (Instr.frameGeneric 0 0 0 0x04 [0]).wellFormed = false ∧
    (Instr.frameGeneric 0 0 0 0x09 (List.replicate 25 0)).wellFormed = true ∧
    (Instr.frameGeneric 0 0 0 0x09 (List.replicate 26 0)).wellFormed = false := by decide

/-- A carry byte stands at packed indices `8g`, a data byte elsewhere (R63). -/
theorem test_wf_packed_index : (Instr.packedCarryByte 0 (rep 8 0) 0 []).wellFormed = true ∧
    (Instr.packedCarryByte 0 (rep 7 0) 0 []).wellFormed = false ∧
    (Instr.packedDataByte 0 (rep 8 0) 0 []).wellFormed = false ∧
    (Instr.packedDataByte 0 (rep 7 0) 0 []).wellFormed = true ∧
    (Instr.packedCarryByte 0 [] 0 (rep 31 0)).wellFormed = false ∧
    (Instr.packedDataByte 0 [0] 0 (rep 30 0)).wellFormed = false := by decide

/-! ### Decoding of words written out from the encodings -/

/-- The selector values of R75 as opcode-table words; every operand bit is 0. -/
theorem test_decode_selectors :
    [0x0, 0x1, 0x2, 0x3, 0x4, 0x5, 0x6, 0x7, 0x8, 0x9, 0xA, 0xB, 0xC, 0xD, 0xE, 0xF].map (decodeTableWord 4) =
      [some .reserved0, some (.encode []), some (.decode 0 []), some .tClear, some (.tSet 0 0 false),
        some (.tSetRow 0 false), some (.tMask 0), some .tToMasks, some (.tFromMasks []),
        some (.fBuild 0 0 0 0 []), some (.fParse []), some (.pCheck 0 0 .request), some .encodeTable,
        some (.decodeTable []), some (.buildRequest 0 0 []), some (.parseResponse [])] := by decide

/-- The encoded requests of P1 step 2, P2 step 3, P3 step 8, P3 step 3 (R30, R76). -/
theorem test_decode_requests :
    dec .blockRequest [0x04, 0x07, 0x10, 0x01, 0x00, 0x00] = some (.tSet 7 16 true) ∧
    dec .blockRequest [0x0B, 0x02, 0x14, 0x01, 0x00, 0x00] = some (.pCheck 0x02 20 .response) ∧
    dec .blockRequest [0x09, 0x7D, 0x01, 0x05, 0x03, 0x01, 0x80] = some (.fBuild 0x7D 0x01 0x05 0x03 [0x80]) ∧
    dec .blockRequest [0x05, 0xFF, 0x00, 0x00, 0x00, 0x00] = some (.tSetRow 0xFF false) := by decide

/-- `B` is the destination of `T_MASK` (P1 step 5), `A` is `n` of `DECODE`, `IN` the operand of the rest (R76). -/
theorem test_decode_in_operands :
    dec .blockRequest [0x06, 0x99, 0x10, 0x00, 0x00, 0x00] = some (.tMask 16) ∧
    dec .blockRequest [0x02, 0x11, 0x00, 0x00, 0x00, 0x02, 0x40, 0x00] = some (.decode 17 [0x40, 0x00]) ∧
    dec .blockRequest [0x01, 0x00, 0x00, 0x00, 0x00, 0x01, 0x80] = some (.encode [0x80]) ∧
    dec .blockRequest [0x08, 0x00, 0x00, 0x00, 0x00, 0x01, 0xFF] = some (.tFromMasks [0xFF]) ∧
    dec .blockRequest [0x0A, 0x00, 0x00, 0x00, 0x00, 0x01, 0xF0] = some (.fParse [0xF0]) ∧
    dec .blockRequest [0x0D, 0x00, 0x00, 0x00, 0x00, 0x01, 0x7F] = some (.decodeTable [0x7F]) ∧
    dec .blockRequest [0x0E, 0x04, 0x05, 0x00, 0x00, 0x01, 0x06] = some (.buildRequest 0x04 0x05 [0x06]) ∧
    dec .blockRequest [0x0F, 0x00, 0x00, 0x00, 0x00, 0x01, 0xF7] = some (.parseResponse [0xF7]) := by decide

/-- The frames of R62 with example identifiers. -/
theorem test_decode_protocol_frames :
    dec .sysexFrame [0xF0, 0x7D, 0x01, 0x05, 0x01, 0xF7] = some (.pingRequest 0x7D 0x01 0x05) ∧
    dec .sysexFrame [0xF0, 0x7D, 0x01, 0x05, 0x02, 0xF7] = some (.readConfigRequest 0x7D 0x01 0x05) ∧
    dec .sysexFrame ([0xF0, 0x7D, 0x01, 0x05, 0x02] ++ rep 20 0x11 ++ [0xF7]) =
      some (.readConfigResponse 0x7D 0x01 0x05 (List.replicate 20 0x11)) ∧
    dec .sysexFrame ([0xF0, 0x7D, 0x01, 0x05, 0x03, 0x40, 0x7F] ++ rep 18 0 ++ [0xF7]) =
      some (.writeConfigRequest 0x7D 0x01 0x05 ([0x40, 0x7F] ++ List.replicate 18 0)) ∧
    dec .sysexFrame [0xF0, 0x7D, 0x01, 0x05, 0x04, 0x06, 0xF7] =
      some (.changeDeviceIdRequest 0x7D 0x01 0x05 0x06) := by decide

/-- The generic frame of V76, a protocol command with another length, and bytes that are no frame (V73, V69). -/
theorem test_decode_other_frames :
    dec .sysexFrame [0xF0, 0x7D, 0x01, 0x05, 0x09, 0x11, 0x22, 0xF7] =
      some (.frameGeneric 0x7D 0x01 0x05 0x09 [0x11, 0x22]) ∧
    dec .sysexFrame [0xF0, 0x7D, 0x01, 0x05, 0x04, 0x06, 0x07, 0xF7] =
      some (.frameGeneric 0x7D 0x01 0x05 0x04 [0x06, 0x07]) ∧
    dec .sysexFrame [0xF0, 0x7D, 0x01, 0x05, 0x03, 0x80, 0xF7] =
      some (.fParse [0xF0, 0x7D, 0x01, 0x05, 0x03, 0x80, 0xF7]) ∧
    dec .sysexFrame [0xF0, 0x7D, 0x01, 0x05, 0xF7] = some (.fParse [0xF0, 0x7D, 0x01, 0x05, 0xF7]) := by decide

/-- The carry byte `0100 0000` and the data byte `0000 0000` of V42, the byte with bit 7 set of V52 (R65, R66). -/
theorem test_decode_payload_bytes :
    dec .payloadByte [0x40, 0x01, 0x00, 0x00] = some (.packedCarryByte 1 [] 0b1000000 [0x00]) ∧
    dec .payloadByte [0x00, 0x01, 0x01, 0x40] = some (.packedDataByte 1 [0x40] 0b0000000 []) ∧
    dec .payloadByte [0x80, 0x00, 0x00] = some (.decode 0 [0x80]) := by decide

/-- Words of the opcode table's frame rows, least significant byte first, and a word of a payload row. -/
theorem test_decode_table_words :
    decodeTableWord 48 0xF702050701F0 = some (.readConfigRequest 0x01 0x07 0x05) ∧
    decodeTableWord 56 0xF70604050701F0 = some (.changeDeviceIdRequest 0x01 0x07 0x05 0x06) ∧
    decodeTableWord 8 0x55 = some (.packedCarryByte 0 [] 0x55 []) ∧
    decodeTableWord 8 0x95 = none := by decide

/-- Bytes that are no presented transaction are rejected by name. -/
theorem test_decode_rejects :
    (match decode .blockRequest [0x10, 0, 0, 0, 0, 0] with | .error e => some e | .ok _ => none) =
      some .selectorTooWide ∧
    (match decode .blockRequest [0x01, 0, 0, 0, 0, 0x20] with | .error e => some e | .ok _ => none) =
      some .inLenTooWide ∧
    (match decode .blockRequest [0x01, 0, 0, 0, 0, 2, 7] with | .error e => some e | .ok _ => none) =
      some .inLenMismatch ∧
    (match decode .blockRequest [0x01, 0, 0, 0, 0] with | .error e => some e | .ok _ => none) =
      some .truncated ∧
    (match decode .payloadByte [0x40, 1] with | .error e => some e | .ok _ => none) = some .truncated ∧
    (match decode .payloadByte [0x40, 1, 2, 0] with | .error e => some e | .ok _ => none) =
      some .cursorOutside := by decide

/-! ### The codec -/

/-- V37's cause, the reserved selector of P3 step 10. -/
theorem test_reserved0 : resp .reserved0 = some (errorResponse .contractViolation) := by decide

/-- V34, V9. -/
theorem test_encode_mixed :
    resp (.encode [0x81, 0x42, 0xA5, 0x7F, 0x80, 0x00, 0xFE, 0x01, 0xC3, 0x3C, 0x99, 0x66, 0xF0, 0x0F, 0xAA, 0x55, 0xE7]) =
      some (okResponse 0 0 0 0 [0x55, 0x01, 0x42, 0x25, 0x7F, 0x00, 0x00, 0x7E, 0x2A, 0x01, 0x43, 0x3C, 0x19, 0x66,
        0x70, 0x0F, 0x50, 0x2A, 0x55, 0x67]) ∧
    resp (.encode [0x80, 0x91, 0xA2, 0xB3, 0xC4, 0xD5, 0xE6, 0xF7, 0x08, 0x19, 0x2A, 0x3B, 0x4C, 0x5D, 0x6E, 0x7F, 0x90]) =
      some (okResponse 0 0 0 0 [0x7F, 0x00, 0x11, 0x22, 0x33, 0x44, 0x55, 0x66, 0x40, 0x77, 0x08, 0x19, 0x2A, 0x3B,
        0x4C, 0x5D, 0x10, 0x6E, 0x7F, 0x10]) := by decide

/-- V20, V24, V26, V36, V37. -/
theorem test_encode_lengths : resp (.encode []) = some (okResponse 0 0 0 0 []) ∧
    resp (.encode [0, 0, 0, 0, 0, 0, 0x80]) = some (okResponse 0 0 0 0 [0x01, 0, 0, 0, 0, 0, 0, 0]) ∧
    resp (.encode [1, 1, 1, 1, 1, 1, 1, 0x80]) = some (okResponse 0 0 0 0 [0, 1, 1, 1, 1, 1, 1, 1, 0x40, 0]) ∧
    resp (.encode (rep 22 0xFF)) = some (okResponse 0 0 0 0 (rep 24 0x7F ++ [0x40, 0x7F])) ∧
    resp (.encode (rep 23 0)) = some (errorResponse .contractViolation) := by decide

/-- V40, V45, V48, V53, V55. -/
theorem test_decode_accepts : resp (.decode 0 []) = some (okResponse 0 0 0 0 []) ∧
    resp (.decode 8 [0, 1, 1, 1, 1, 1, 1, 1, 0x40, 0]) =
      some (okResponse 0 0 0 0 [1, 1, 1, 1, 1, 1, 1, 0x80]) ∧
    resp (.decode 17 [0x55, 0x01, 0x42, 0x25, 0x7F, 0x00, 0x00, 0x7E, 0x2A, 0x01, 0x43, 0x3C, 0x19, 0x66, 0x70, 0x0F,
        0x50, 0x2A, 0x55, 0x67]) =
      some (okResponse 0 0 0 0 [0x81, 0x42, 0xA5, 0x7F, 0x80, 0x00, 0xFE, 0x01, 0xC3, 0x3C, 0x99, 0x66, 0xF0, 0x0F,
        0xAA, 0x55, 0xE7]) ∧
    resp (.decode 17 (rep 16 0 ++ [0x0F, 0, 0, 0])) = some (okResponse 0 0 0 0 (rep 17 0)) ∧
    resp (.decode 22 (rep 26 0x7F)) = some (okResponse 0 0 0 0 (rep 22 0xFF)) := by decide

/-- V46, V49, V51, V52, V56, V57, and V53's packet with `STRICT_CARRY` true (R73). -/
theorem test_decode_refuses : resp (.decode 7 (rep 9 0)) = some (errorResponse .malformedPacket) ∧
    resp (.decode 17 (rep 19 0)) = some (errorResponse .malformedPacket) ∧
    resp (.decode 17 (rep 5 0 ++ [0x80] ++ rep 14 0)) = some (errorResponse .malformedPacket) ∧
    resp (.decode 17 ([0x80] ++ rep 19 0)) = some (errorResponse .malformedPacket) ∧
    resp (.decode 23 (rep 26 0)) = some (errorResponse .malformedPacket) ∧
    resp (.decode 17 (rep 27 0)) = some (errorResponse .contractViolation) ∧
    (match decodeBytes ⟨0, 0, 26, true, fun _ _ => true⟩ (rep 16 0 ++ [0x0F, 0, 0, 0]) 17 with
      | .ok _ => none | .error e => some e) = some .malformedPacket := by decide

/-! ### The routing table -/

/-- V115. -/
theorem test_tClear : after .tClear (st (rep 17 0xFF)) = some (some (okResponse 0 0 0 0 []), rep 17 0) := by decide

/-- V101. -/
theorem test_tSet_last_cell :
    after (.tSet 7 16 true) State.reset = some (some (okResponse 0 0 0 0 []), rep 16 0 ++ [0x80]) := by decide

/-- V105, V106. -/
theorem test_tSet_out_of_range :
    after (.tSet 8 0 true) (st (rep 17 1)) = some (some (errorResponse .invalidIndex), rep 17 1) ∧
    after (.tSet 0 17 true) (st (rep 17 1)) = some (some (errorResponse .invalidIndex), rep 17 1) := by decide

/-- V109. -/
theorem test_tSetRow_clears : after (.tSetRow 7 false) (st (rep 17 0xFF)) =
    some (some (okResponse 0 0 0 0 []), rep 17 0x7F) := by decide

/-- V110. -/
theorem test_tSetRow_out_of_range : after (.tSetRow 8 false) (st (rep 17 0xFF)) =
    some (some (errorResponse .invalidIndex), rep 17 0xFF) := by decide

/-- V112, V114. -/
theorem test_tMask :
    (after (.tMask 3) (st ([0, 0, 0, 0x81] ++ rep 13 0))).bind Prod.fst = some (okResponse 0x81 0 0 0 []) ∧
    (after (.tMask 17) (st ([0, 0, 0, 0x81] ++ rep 13 0))).bind Prod.fst =
      some (errorResponse .invalidIndex) := by decide

/-- P3 step 11. -/
theorem test_tToMasks : (after .tToMasks (st ([0x81] ++ rep 15 0 ++ [0x80]))).bind Prod.fst =
    some (okResponse 0 0 0 0 ([0x81] ++ rep 15 0 ++ [0x80])) := by decide

/-- V117. -/
theorem test_tFromMasks_replaces : after (.tFromMasks ([0xFF] ++ rep 16 0)) (st (rep 17 0xFF)) =
    some (some (okResponse 0 0 0 0 []), [0xFF] ++ rep 16 0) := by decide

/-- V118, V119. -/
theorem test_tFromMasks_lengths :
    after (.tFromMasks (rep 16 0xFF)) (st (rep 17 0xFF)) =
      some (some (errorResponse .contractViolation), rep 17 0xFF) ∧
    after (.tFromMasks (rep 18 0)) (st (rep 17 0xFF)) =
      some (some (errorResponse .contractViolation), rep 17 0xFF) := by decide

/-! ### The frame and the catalogue -/

/-- V65, V61. -/
theorem test_fBuild : resp (.fBuild 0xFF 0xF0 0xF7 0x80 [0x7F]) =
      some (okResponse 0 0 0 0 [0xF0, 0xFF, 0xF0, 0xF7, 0x80, 0x7F, 0xF7]) ∧
    resp (.fBuild 0 0 0 0 []) = some (okResponse 0 0 0 0 [0xF0, 0, 0, 0, 0, 0xF7]) := by decide

/-- V62's length, V63, V64. -/
theorem test_fBuild_payload :
    (resp (.fBuild 0x7D 1 0 3 (rep 20 0))).map (fun r => r.out.length) = some 26 ∧
    resp (.fBuild 0x7D 1 0 3 (rep 21 0)) = some (errorResponse .contractViolation) ∧
    resp (.fBuild 0x7D 1 5 3 [0x80]) = some (errorResponse .contractViolation) := by decide

/-- V66, V74, V76. -/
theorem test_fParse_accepts :
    resp (.fParse [0xF0, 0x7D, 0x01, 0x05, 0x04, 0x06, 0xF7]) = some (okResponse 0x7D 0x01 0x05 0x04 [0x06]) ∧
    resp (.fParse [0xF0, 0xF7, 0xF0, 0x80, 0xFF, 0xF7]) = some (okResponse 0xF7 0xF0 0x80 0xFF []) ∧
    resp (.fParse [0xF0, 0x7D, 0x01, 0x05, 0x09, 0x11, 0x22, 0xF7]) =
      some (okResponse 0x7D 0x01 0x05 0x09 [0x11, 0x22]) := by decide

/-- V68, V69, V72, V73, V75, V77. -/
theorem test_fParse_refuses : resp (.fParse []) = some (errorResponse .frameError) ∧
    resp (.fParse [0xF0, 0x7D, 0x01, 0x05, 0xF7]) = some (errorResponse .frameError) ∧
    resp (.fParse [0x70, 0x7D, 0x01, 0x05, 0x01, 0xF7]) = some (errorResponse .frameError) ∧
    resp (.fParse [0xF0, 0x7D, 0x01, 0x05, 0x03, 0x80, 0xF7]) = some (errorResponse .frameError) ∧
    resp (.fParse [0xF0, 0x7D, 1, 5, 1, 0xF7, 0xF0, 0x7D, 1, 5, 1, 0xF7]) = some (errorResponse .frameError) ∧
    resp (.fParse ([0xF0] ++ rep 25 0 ++ [0xF7])) = some (errorResponse .contractViolation) := by decide

/-- V82, V83, V84, V85, V90, V92. -/
theorem test_pCheck_request : resp (.pCheck 3 20 .request) = some (okResponse 0 0 0 0 []) ∧
    resp (.pCheck 4 1 .request) = some (okResponse 0 0 0 0 []) ∧
    resp (.pCheck 1 1 .request) = some (errorResponse .malformedPacket) ∧
    resp (.pCheck 3 19 .request) = some (errorResponse .malformedPacket) ∧
    resp (.pCheck 2 20 .request) = some (errorResponse .malformedPacket) ∧
    resp (.pCheck 0 0 .request) = some (errorResponse .unknownCommand) := by decide

/-- V88, V89, V91, V93. -/
theorem test_pCheck_response : resp (.pCheck 2 20 .response) = some (okResponse 0 0 0 0 []) ∧
    resp (.pCheck 2 0 .response) = some (errorResponse .malformedPacket) ∧
    resp (.pCheck 1 200 .response) = some (okResponse 0 0 0 0 []) ∧
    resp (.pCheck 5 20 .response) = some (errorResponse .unknownCommand) := by decide

/-! ### The collaborator-facing operations -/

/-- V131, P1 step 6. -/
theorem test_encodeTable :
    (after .encodeTable (st (rep 17 0xFF))).bind Prod.fst =
      some (okResponse 0 0 0 0 (rep 16 0x7F ++ [0x70, 0x7F, 0x7F, 0x7F])) ∧
    (after .encodeTable (st [0x81, 1, 1, 0, 1, 1, 1, 1, 1, 1, 1, 1, 1, 1, 1, 1, 0x81])).bind Prod.fst =
      some (okResponse 0 0 0 0 [0x40, 1, 1, 1, 0, 1, 1, 1, 0, 1, 1, 1, 1, 1, 1, 1, 0x10, 1, 1, 1]) := by decide

/-- V134. -/
theorem test_decodeTable : after (.decodeTable (rep 16 0 ++ [0x1F, 0, 0, 0x7F])) (st (rep 17 1)) =
    some (some (okResponse 0 0 0 0 []), rep 16 0 ++ [0xFF]) := by decide

/-- V135, V136. -/
theorem test_decodeTable_refuses :
    after (.decodeTable (rep 19 0)) (st (rep 17 1)) = some (some (errorResponse .malformedPacket), rep 17 1) ∧
    after (.decodeTable (rep 5 0 ++ [0x80] ++ rep 14 0)) (st (rep 17 1)) =
      some (some (errorResponse .malformedPacket), rep 17 1) := by decide

/-- V139 with the block's own identifier bytes, whatever they are. -/
theorem test_buildRequest : resp (.buildRequest 4 5 [6]) =
    some (okResponse 0 0 0 0 [0xF0, Config.mfgId, Config.modelId, 5, 4, 6, 0xF7]) := rfl

/-- V140 to V144: the order of the checks. -/
theorem test_buildRequest_refuses : resp (.buildRequest 3 5 (rep 19 0)) = some (errorResponse .malformedPacket) ∧
    resp (.buildRequest 3 5 ([0x80] ++ rep 19 0)) = some (errorResponse .contractViolation) ∧
    resp (.buildRequest 9 5 [0x80]) = some (errorResponse .unknownCommand) ∧
    resp (.buildRequest 1 5 [0x80]) = some (errorResponse .malformedPacket) ∧
    resp (.buildRequest 4 5 [0x86]) = some (errorResponse .contractViolation) := ⟨rfl, rfl, rfl, rfl, rfl⟩

/-- V147, V148. -/
theorem test_parseResponse_accepts :
    resp (.parseResponse [0xF0, 0x7D, 0x01, 0x05, 0x03, 0x11, 0x22, 0x33, 0xF7]) =
      some (okResponse 0x7D 0x01 0x05 0x03 [0x11, 0x22, 0x33]) ∧
    resp (.parseResponse [0xF0, 0x00, 0x7F, 0x11, 0x01, 0xF7]) = some (okResponse 0x00 0x7F 0x11 0x01 []) := by
  decide

/-- V145, V146. -/
theorem test_parseResponse_refuses :
    resp (.parseResponse [0xF0, 0x7D, 0x01, 0x05, 0x09, 0x11, 0x22, 0xF7]) = some (errorResponse .unknownCommand) ∧
    resp (.parseResponse [0xF0, 0x7D, 0x01, 0x05, 0x09, 0x11, 0x22, 0x00]) = some (errorResponse .frameError) := by
  decide

/-! ### Frames and packed bytes handed over -/

/-- V67's frame, P2 step 2's shape, P5's frames: what `PARSE_RESPONSE` answers to them. -/
theorem test_protocol_frames : resp (.pingRequest 0x7D 0x01 0x05) = some (okResponse 0x7D 0x01 0x05 0x01 []) ∧
    resp (.readConfigRequest 0x7D 0x01 0x05) = some (okResponse 0x7D 0x01 0x05 0x02 []) ∧
    resp (.readConfigResponse 0x7D 0x01 0x05 (List.replicate 20 0x55)) =
      some (okResponse 0x7D 0x01 0x05 0x02 (rep 20 0x55)) ∧
    resp (.writeConfigRequest 0x7D 0x01 0x00 (List.replicate 20 0x7F)) =
      some (okResponse 0x7D 0x01 0x00 0x03 (rep 20 0x7F)) ∧
    resp (.changeDeviceIdRequest 0x7D 0x01 0x05 0x06) = some (okResponse 0x7D 0x01 0x05 0x04 [0x06]) := by decide

/-- V76's frame; one payload byte more than `CAP` holds. -/
theorem test_frameGeneric :
    resp (.frameGeneric 0x7D 0x01 0x05 0x09 [0x11, 0x22]) = some (okResponse 0x7D 0x01 0x05 0x09 [0x11, 0x22]) ∧
    resp (.frameGeneric 0 0 0 9 (List.replicate 21 0)) = some (errorResponse .contractViolation) := by decide

/-- V42 by its carry byte, V45 by the carry byte of its second group, V46. -/
theorem test_packedCarryByte : resp (.packedCarryByte 1 [] 0x40 [0]) = some (okResponse 0 0 0 0 [0x80]) ∧
    resp (.packedCarryByte 8 [0, 1, 1, 1, 1, 1, 1, 1] 0x40 [0]) =
      some (okResponse 0 0 0 0 [1, 1, 1, 1, 1, 1, 1, 0x80]) ∧
    resp (.packedCarryByte 7 [] 0 (rep 8 0)) = some (errorResponse .malformedPacket) := by decide

/-- V42 and V44 by their data bytes. -/
theorem test_packedDataByte : resp (.packedDataByte 1 [0x40] 0 []) = some (okResponse 0 0 0 0 [0x80]) ∧
    resp (.packedDataByte 1 [0x3F] 0x55 []) = some (okResponse 0 0 0 0 [0x55]) := by decide

/-! ### Steps -/

/-- The first step after reset runs a word of the opcode table (P3 step 10's selector; R62's `PING` frame). -/
theorem test_withFetchWord :
    step (State.reset.withFetchWord 4 0x0) = exec .reserved0 State.reset ∧
    step (State.reset.withFetchWord 48 0xF701050701F0) = exec (.pingRequest 0x01 0x07 0x05) State.reset :=
  ⟨rfl, rfl⟩

/-- The 3-bit values of the result codes (R196). -/
theorem test_codes : [ErrCode.ok, .error .invalidIndex, .error .malformedPacket, .error .frameError,
    .error .unknownCommand, .error .contractViolation].map ErrCode.bits = [0, 1, 2, 3, 4, 5] := by decide

/-- A program of two requests, the second made from the first one's result (R233; V21 and V42). -/
theorem test_program :
    (match Program.run [fun _ => .present (.request ⟨1, 0, 0, 0, 0, [0x80]⟩),
        fun rs => .present (.request ⟨2, 1, 0, 0, 0, (rs.getD 0 (okResponse 0 0 0 0 [])).out⟩)] State.reset with
      | .next t => some (t.responses.map Response.out, t.successful)
      | .fault _ => none
      | .refused _ => none) = some ([[0x40, 0x00], [0x80]], true) := by decide

/-! ### Witnesses: values that meet the hypotheses of each obligation -/

/-- A host that has a request and then the reset input to present. -/
def twoInputs : State := State.reset.setInputs [.present (.request ⟨3, 0, 0, 0, 0, []⟩), .reset]

/-- A packet: the packed length of `n`, bit 7 clear everywhere. -/
theorem zeros_isPacket {k n : Nat} (h : k = n + (n + 6) / 7) : isPacket (rep k 0) n :=
  ⟨by simp [rep, h], by simp [rep]⟩

/-- A frame from its fields. -/
theorem frame_isFrame (m o d c : Byte) (p : List Byte) (h : ∀ b ∈ p, b.getLsbD 7 = false) :
    isFrame (buildFrame ⟨m, o, d, c, p⟩) := (isFrame_iff _).2 ⟨_, rfl, (sevenBitSafe_iff p).2 h⟩

theorem test_witness_step :
    Presented.ofBytes .blockRequest [0x03, 0, 0, 0, 0, 0] = .ok (.request ⟨3, 0, 0, 0, 0, []⟩) ∧
    decode .blockRequest [0x03, 0, 0, 0, 0, 0] = .ok .tClear ∧
    twoInputs.inputs = .present (.request ⟨3, 0, 0, 0, 0, []⟩) :: [.reset] := ⟨rfl, rfl, rfl⟩

theorem test_witness_idle_step : State.reset.inputs = [] := rfl

/-- `DecodeOfEncodeIsTheInstruction`: operands at their widest. -/
theorem test_witness_round_trip : (Instr.encode (rep 31 0xFF)).wellFormed = true ∧
    (Instr.tSet 0xFF 0xFF true).wellFormed = true ∧
    (Instr.frameGeneric 0xFF 0xFF 0xFF 0xFF (List.replicate 25 0x7F)).wellFormed = true ∧
    (Instr.packedCarryByte 0xFF (rep 24 0xFF) 0x7F (rep 6 0xFF)).wellFormed = true ∧
    (Instr.packedDataByte 0xFF (rep 30 0xFF) 0x7F []).wellFormed = true := by decide

theorem test_witness_frame_lengths :
    (Instr.readConfigResponse 0 0 0 (List.replicate 20 0)).wellFormed = true ∧
    (Instr.writeConfigRequest 0 0 0 (List.replicate 20 0x7F)).wellFormed = true := by decide

/-- `UnreadOperandsAreIgnored`: V103 and V111 against the plain operands, and `T_CLEAR` with every field different. -/
theorem test_witness_unread_operands :
    (∀ r ∈ [((⟨4, 3, 5, 0xFF, 9, [1]⟩ : Request), (⟨4, 3, 5, 1, 0, []⟩ : Request)),
        (⟨5, 0, 0x99, 1, 0, []⟩, ⟨5, 0, 0, 1, 7, [2]⟩), (⟨3, 1, 2, 3, 4, [5]⟩, ⟨3, 0, 0, 0, 0, []⟩),
        (⟨9, 1, 2, 3, 4, [5]⟩, ⟨9, 1, 2, 3, 4, [5]⟩)],
      r.1.opsel = r.2.opsel ∧
      (r.1.opsel.toNat ∈ [0x2, 0x4, 0x5, 0x9, 0xB, 0xE] → r.1.a = r.2.a) ∧
      (r.1.opsel.toNat ∈ [0x4, 0x6, 0x9, 0xB, 0xE] → r.1.b = r.2.b) ∧
      (r.1.opsel.toNat ∈ [0x4, 0x5, 0xB] → r.1.c.getLsbD 0 = r.2.c.getLsbD 0) ∧
      (r.1.opsel.toNat = 0x9 → r.1.c = r.2.c ∧ r.1.d = r.2.d) ∧
      (r.1.opsel.toNat ∈ [0x1, 0x2, 0x8, 0x9, 0xA, 0xD, 0xE, 0xF] → r.1.inp = r.2.inp)) := by decide

/-- `EncodeAnswersThePackedBytes` and the 17-byte clause of `EncodeHasTheStatedProperties`. -/
theorem test_witness_encode_lengths :
    (rep 22 0xFF).length ≤ 22 ∧ 23 ≤ (rep 23 0).length ∧ (rep 17 0xFF).length = 17 := by decide

/-- `EncodePlacesEverySourceByte`: the first and the last byte of 8, and an unused slot of the second group. -/
theorem test_witness_places : (0 : Nat) < 8 ∧ 7 < 8 ∧ 1 < (8 + 6) / 7 ∧ 8 ≤ 7 * 1 + 1 := by decide

theorem test_witness_decode_over_capacity : 27 ≤ (rep 27 0).length := by decide

theorem test_witness_decode_not_packet :
    (rep 26 0).length ≤ 26 ∧ ¬ isPacket (rep 26 0) (23 : Byte).toNat ∧ ¬ isPacket [0x80, 0] (1 : Byte).toNat :=
  ⟨by decide, fun h => absurd h.1 (by decide), fun h => absurd (h.2 0x80 (by simp)) (by decide)⟩

theorem test_witness_decode_packet :
    (rep 26 0).length ≤ 26 ∧ isPacket (rep 26 0) (22 : Byte).toNat ∧ isPacket [] (0 : Byte).toNat :=
  ⟨by decide, zeros_isPacket rfl, ⟨rfl, by simp⟩⟩

theorem test_witness_decode_corners : (rep 25 0).length ≤ 26 ∧ (rep 25 0).length % 8 = 1 ∧
    (rep 26 0).length ≤ 26 ∧ 23 ≤ (23 : Byte).toNat := by decide

/-- `UnusedCarrySlotsAreIgnoredUnlessStrict`: V42's packet and V43's, which differs in an unused slot alone. -/
theorem test_witness_unused_slots :
    isPacket [0x40, 0] 1 ∧ isPacket [0x60, 0] 1 ∧
    (∀ i < 1, ([0x40, 0] : List Byte).getD (8 * (i / 7) + 1 + i % 7) 0 =
        ([0x60, 0] : List Byte).getD (8 * (i / 7) + 1 + i % 7) 0 ∧
      (([0x40, 0] : List Byte).getD (8 * (i / 7)) 0).getLsbD (6 - i % 7) =
        (([0x60, 0] : List Byte).getD (8 * (i / 7)) 0).getLsbD (6 - i % 7)) ∧
    isCanonical [0x40, 0] 1 ∧ ¬ isCanonical [0x60, 0] 1 ∧
    decodeBytes { Config.params with strictCarry := false } [0x60, 0] 1 = .ok [0x80] :=
  ⟨⟨rfl, by decide⟩, ⟨rfl, by decide⟩, by decide, (canonical_iff _ _).1 (by decide),
    fun h => absurd ((canonical_iff _ _).2 h) (by decide), rfl⟩

/-- `SetWritesOneCell`, `SetRowWritesOneOutput`, `MaskReadsOneDestination`: each side of each range. -/
theorem test_witness_indices : (7 : Byte).toNat < 8 ∧ (16 : Byte).toNat < 17 ∧ 8 ≤ (8 : Byte).toNat ∧
    17 ≤ (17 : Byte).toNat ∧ (16 : Fin 17).val = (16 : Byte).toNat := by decide

/-- `FromMasksRebuildsTheGrid`, `MasksAndGridCarryTheSameBits`: the length, its neighbours, and a state whose grid is the
one rebuilt. -/
theorem test_witness_masks : (rep 17 0x80).length = 17 ∧ (rep 16 0).length ≠ 17 ∧ (rep 18 0).length ≠ 17 ∧
    (st (rep 17 0x80)).grid = fromMasks (rep 17 0x80) := ⟨by decide, by decide, by decide, rfl⟩

/-- `BuildAssemblesTheFrame`: the longest payload, one byte more, a byte with bit 7 set. -/
theorem test_witness_build : ((rep 20 0x7F).length ≤ 20 ∧ ∀ x ∈ rep 20 0x7F, x.getLsbD 7 = false) ∧
    21 ≤ (rep 21 0).length ∧ ∃ x ∈ [(0x80 : Byte)], x.getLsbD 7 = true := by decide

/-- `ParseReturnsTheFields`, `ParseResponseChecksFrameThenCommand`: a frame of the protocol at the least and at the
greatest length, a frame of another command. -/
theorem test_witness_parse_frame :
    (buildFrame ⟨0x7D, 1, 5, 1, []⟩).length ≤ 26 ∧ isFrame (buildFrame ⟨0x7D, 1, 5, 1, []⟩) ∧
    (buildFrame ⟨0x7D, 1, 5, 1, []⟩).getD 4 0 ∈ commandBytes ∧
    (buildFrame ⟨0x7D, 1, 5, 3, rep 20 0x7F⟩).length ≤ 26 ∧ isFrame (buildFrame ⟨0x7D, 1, 5, 3, rep 20 0x7F⟩) ∧
    (buildFrame ⟨0x7D, 1, 5, 3, rep 20 0x7F⟩).getD 4 0 ∈ commandBytes ∧
    (buildFrame ⟨0x7D, 1, 5, 5, []⟩).length ≤ 26 ∧ isFrame (buildFrame ⟨0x7D, 1, 5, 5, []⟩) ∧
    (buildFrame ⟨0x7D, 1, 5, 5, []⟩).getD 4 0 ∉ commandBytes :=
  ⟨by decide, frame_isFrame _ _ _ _ _ (by decide), by decide, by decide, frame_isFrame _ _ _ _ _ (by decide),
    by decide, by decide, frame_isFrame _ _ _ _ _ (by decide), by decide⟩

/-- The other clauses of the two: over capacity, too short (V69), a payload byte with bit 7 set (V73). -/
theorem test_witness_parse_refused : 27 ≤ (rep 27 0).length ∧
    ([0xF0, 0x7D, 1, 5, 0xF7] : List Byte).length ≤ 26 ∧ ¬ isFrame [0xF0, 0x7D, 1, 5, 0xF7] ∧
    ([0xF0, 0x7D, 1, 5, 3, 0x80, 0xF7] : List Byte).length ≤ 26 ∧ ¬ isFrame [0xF0, 0x7D, 1, 5, 3, 0x80, 0xF7] :=
  ⟨by decide, by decide, fun h => absurd h.1 (by decide), by decide,
    fun h => absurd (h.2.2.2 5 (by decide) (by decide)) (by decide)⟩

/-- `BuildAndParseAreInverse`: V60 and V66 meet its two sides. -/
theorem test_witness_build_and_parse :
    exec (.fBuild 0x7D 1 5 4 [6]) State.reset = .next (State.reset.answered State.reset.grid
      (okResponse 0 0 0 0 [0xF0, 0x7D, 1, 5, 4, 6, 0xF7])) ∧
    exec (.fParse [0xF0, 0x7D, 1, 5, 4, 6, 0xF7]) State.reset = .next (State.reset.answered State.reset.grid
      (okResponse 0x7D 1 5 4 [6])) := ⟨rfl, rfl⟩

/-- `DecodeTableRebuildsTheGrid`: V57's length, V135, V52's byte, V132. -/
theorem test_witness_decodeTable : 27 ≤ (rep 27 0).length ∧ ((rep 19 0).length ≤ 26 ∧ (rep 19 0).length ≠ 20) ∧
    (([0x80] ++ rep 19 0).length ≤ 26 ∧ ∃ b ∈ ([0x80] ++ rep 19 0 : List Byte), b.getLsbD 7 = true) ∧
    (rep 20 0x7F).length = 20 ∧ ∀ b ∈ rep 20 0x7F, b.getLsbD 7 = false := by decide

/-- `BuildRequestChecksThenBuilds`: one request for each clause (V137 to V144). -/
theorem test_witness_buildRequest : 27 ≤ (rep 27 0).length ∧
    ((rep 26 0).length ≤ 26 ∧ (5 : Byte) ∉ commandBytes) ∧
    ((rep 26 0).length ≤ 26 ∧ (3 : Byte) ∈ commandBytes ∧ (rep 26 0).length ≠ requestLength 3) ∧
    ((4 : Byte) ∈ commandBytes ∧ [(0x86 : Byte)].length = requestLength 4 ∧
      ∃ b ∈ [(0x86 : Byte)], b.getLsbD 7 = true) ∧
    (3 : Byte) ∈ commandBytes ∧ (rep 20 0x7F).length = requestLength 3 ∧
      ∀ b ∈ rep 20 0x7F, b.getLsbD 7 = false := by decide

/-- `CompositesAreTheirPrimitives`: the primitive transactions of its clauses, successful and failing. -/
theorem test_witness_composites :
    exec (.decode 17 (rep 20 0)) State.reset =
      .next (State.reset.answered State.reset.grid (okResponse 0 0 0 0 (rep 17 0))) ∧
    exec (.decode 17 (rep 19 0)) State.reset =
      .next (State.reset.answered State.reset.grid (errorResponse .malformedPacket)) ∧
    exec (.pCheck 4 (BitVec.ofNat 8 [(6 : Byte)].length) .request) State.reset =
      .next (State.reset.answered State.reset.grid (okResponse 0 0 0 0 [])) ∧
    exec (.pCheck 9 (BitVec.ofNat 8 [(6 : Byte)].length) .request) State.reset =
      .next (State.reset.answered State.reset.grid (errorResponse .unknownCommand)) := ⟨rfl, rfl, rfl, rfl⟩

/-- `SendAndReceivePathsRestore`: a request that is built. -/
theorem test_witness_request_built : exec (.buildRequest 4 5 [6]) State.reset =
    .next (State.reset.answered State.reset.grid
      (okResponse 0 0 0 0 [0xF0, Config.mfgId, Config.modelId, 5, 4, 6, 0xF7])) := rfl

/-- `ProtocolFramesAreParsedNotExecuted`, `GenericFramesAreParsed`: the payload lengths of their clauses. -/
theorem test_witness_frame_payloads : (List.replicate 20 (0x7F : Septet)).length = 20 ∧
    (List.replicate 20 (0x7F : Septet)).length ≤ 20 ∧ 21 ≤ (List.replicate 21 (0 : Septet)).length := by decide

/-- `CarryByteGivesTheHighBits`: the last carry byte of the longest packet, and a packet of no length. -/
theorem test_witness_carry_byte :
    (rep 24 0).length % 8 = 0 ∧ (rep 24 0).length + 1 + (rep 1 0).length ≤ 26 ∧
    isPacket (rep 24 0 ++ (0x40 : Septet).setWidth 8 :: rep 1 0) (22 : Byte).toNat ∧
    7 * ((rep 24 0).length / 8) + 0 < (22 : Byte).toNat ∧
    ([] : List Byte).length % 8 = 0 ∧ ¬ isPacket ([] ++ (0 : Septet).setWidth 8 :: []) (0 : Byte).toNat :=
  ⟨by decide, by decide, ⟨rfl, by decide⟩, by decide, by decide, fun h => absurd h.1 (by decide)⟩

/-- `DataByteGivesTheLowBits`: the last data byte of the longest packet, and a packet of another length. -/
theorem test_witness_data_byte :
    (rep 25 0).length % 8 ≠ 0 ∧ (rep 25 0).length + 1 + ([] : List Byte).length ≤ 26 ∧
    isPacket (rep 25 0 ++ (0x7F : Septet).setWidth 8 :: []) (22 : Byte).toNat ∧
    ¬ isPacket (rep 25 0 ++ (0x7F : Septet).setWidth 8 :: []) (21 : Byte).toNat :=
  ⟨by decide, by decide, ⟨rfl, by decide⟩, fun h => absurd h.1 (by decide)⟩

/-- `InvalidIndex…`, `ErrorReturnLeavesNothing`, `FailedTransactionsLeaveNoTrace`: V105. -/
theorem test_witness_invalid_index : exec (.tSet 8 0 true) State.reset =
    .next (State.reset.answered State.reset.grid (errorResponse .invalidIndex)) := rfl

/-- `ReservedRequestEncodings`: V103 against the plain operand, V95 against the plain direction. -/
theorem test_witness_bit0 : (0xFF : Byte).getLsbD 0 = (1 : Byte).getLsbD 0 ∧
    (0xFE : Byte).getLsbD 0 = (0 : Byte).getLsbD 0 ∧ (0x4 : BitVec 4) = 0x4 ∧ (0xB : BitVec 4) = 0xB := by decide

/-- The statements on which requests raise which error: a request for each clause of `P_CHECK` and its neighbour. -/
theorem test_witness_check_lengths : ((3 : Byte) ∈ commandBytes ∧ (19 : Byte).toNat ≠ requestLength 3) ∧
    (20 : Byte).toNat = requestLength 3 ∧ (19 : Byte) ≠ 20 ∧ (5 : Byte) ∉ commandBytes := by decide

/-- `ContractViolation…`: V64, and its mark. -/
theorem test_witness_contract_violation : exec (.fBuild 0x7D 1 5 3 [0x80]) State.reset =
    .next (State.reset.answered State.reset.grid (errorResponse .contractViolation)) := rfl

/-- `GridIsAccessedOnlyByItsOperations`: a step that writes the grid, by an operation and by the reset input. -/
theorem test_witness_grid_written :
    (∃ t, step ((st (rep 17 1)).setInputs [.present (.request ⟨3, 0, 0, 0, 0, []⟩)]) = .next t ∧
      t.grid ≠ (st (rep 17 1)).grid) ∧
    ∃ t, step ((st (rep 17 1)).setInputs [.reset]) = .next t ∧ t.grid ≠ (st (rep 17 1)).grid :=
  ⟨⟨_, rfl, by decide⟩, ⟨_, rfl, by decide⟩⟩

/-- `OnlyTheGridPersists`: two states that differ beside the grid. -/
theorem test_witness_same_grid : State.reset.grid = Grid.empty ∧ twoInputs.grid = Grid.empty ∧
    twoInputs ≠ State.reset := ⟨rfl, rfl, by decide⟩

/-- `ResetEmptiesTheGrid`, `ResetInputGivesNoResponse`: the reset input after a grid that was not empty. -/
theorem test_witness_reset_input : ((st (rep 17 1)).setInputs [.reset]).inputs = [.reset] ∧
    step ((st (rep 17 1)).setInputs [.reset]) = .next State.reset := ⟨rfl, by
      exact congrArg Host.Outcome.next (show ((st (rep 17 1)).setInputs []).assertReset = State.reset from rfl)⟩

/-- `StepKeepsTheRecord`: a record with a `ContractViolation` in it, and a step from it. -/
theorem test_witness_record :
    (twoInputs.answered Grid.empty (errorResponse .contractViolation)).recordOk = true ∧
    ∃ t, step (twoInputs.answered Grid.empty (errorResponse .contractViolation)) = .next t :=
  ⟨by decide, _, rfl⟩

/-- `ViolationMarkIsNeverCleared`: the same state is marked. -/
theorem test_witness_mark :
    (twoInputs.answered Grid.empty (errorResponse .contractViolation)).violated = true := by decide

/-- `CapacityBoundsEveryBuffer`: the least capacity, an operand over it, and a result at it. -/
theorem test_witness_capacity : 26 ≤ Config.params.cap ∧ Config.params.cap < (rep 27 0).length ∧
    Config.params.cap < (⟨0, 0, 0, 0, rep 21 0⟩ : Message).payload.length + 6 ∧
    opEncode Config.params (rep 22 0xFF) = .ok { out := rep 24 0x7F ++ [0x40, 0x7F] } :=
  ⟨by decide, by decide, by decide, rfl⟩

/-- `WireLegalityIsTheHostsDuty`: a frame that is built with a `device_id` above `0x7F` (V138). -/
theorem test_witness_wire : opBuildRequest Config.params 2 0xFF [] =
    .ok { out := [0xF0, Config.mfgId, Config.modelId, 0xFF, 2, 0xF7] } := rfl

end Sys2Proof.Tests
end

section
/-!
PROOFS. The block's state: which operations write the grid and which read it (R23), and that nothing but the grid
persists (R24). Both follow from `exec_eq`: a transaction is `result` of the instruction and the grid.
-/
namespace Sys2Proof
open Sys2Proof.Machine

/-! ### Which operations write the grid and which read it -/

/-- The operations that write the grid (R23). -/
def Instr.writesGrid : Instr → Bool
  | .tClear | .tSet _ _ _ | .tSetRow _ _ | .tFromMasks _ | .decodeTable _ => true
  | _ => false

/-- The operations that read the grid (R23). -/
def Instr.readsGrid : Instr → Bool
  | .tMask _ | .tToMasks | .encodeTable => true
  | _ => false

theorem Instr.writesGrid_iff (i : Instr) : i.writesGrid = true ↔
    i = .tClear ∨ (∃ o d v, i = .tSet o d v) ∨ (∃ o v, i = .tSetRow o v) ∨
      (∃ m, i = .tFromMasks m) ∨ ∃ q, i = .decodeTable q := by
  cases i <;> simp [Instr.writesGrid]

/-! ### The ends of an operation -/

@[simp] theorem readResult_grid (g : Grid) (x : Except Err Reply) : (readResult g x).1 = g := by
  cases x <;> rfl

/-- The response of an operation that writes no state is that of its reply, whatever the grid. -/
theorem readResult_response (g g' : Grid) (x : Except Err Reply) :
    (readResult g x).2 = (readResult g' x).2 := by
  cases x <;> rfl

/-- The response of an operation that writes the grid does not show what was written. -/
theorem writeResult_response (g g' : Grid) {x y : Except Err Grid}
    (h : x.map (fun _ => ()) = y.map fun _ => ()) : (writeResult g x).2 = (writeResult g' y).2 := by
  cases x <;> cases y <;> cases h <;> rfl

/-- Whether `T_SET` succeeds is a matter of its indices, not of the grid (R111). -/
theorem opSet_outcome (o d : Byte) (v : Bool) (g g' : Grid) :
    (opSet o d v g).map (fun _ => ()) = (opSet o d v g').map fun _ => () := by
  unfold opSet
  cases outputIndex o <;> cases destinationIndex d <;> simp only [Except.map]

/-- Whether `T_SET_ROW` succeeds is a matter of its index, not of the grid (R112). -/
theorem opSetRow_outcome (o : Byte) (v : Bool) (g g' : Grid) :
    (opSetRow o v g).map (fun _ => ()) = (opSetRow o v g').map fun _ => () := by
  unfold opSetRow
  cases outputIndex o <;> simp only [Except.map]

/-! ### The result of an instruction -/

theorem result_grid_of_not_writesGrid {i : Instr} (h : i.writesGrid = false) (g : Grid) :
    (result i g).1 = g := by
  cases i with
  | tClear | tSet | tSetRow | tFromMasks | decodeTable => cases h
  | _ => simp only [result, readResult_grid]

theorem result_response_of_not_readsGrid {i : Instr} (h : i.readsGrid = false) (g g' : Grid) :
    (result i g).2 = (result i g').2 := by
  cases i with
  | tMask | tToMasks | encodeTable => cases h
  | tSet o d v => exact writeResult_response g g' (opSet_outcome o d v g g')
  | tSetRow o v => exact writeResult_response g g' (opSetRow_outcome o v g g')
  | tClear | tFromMasks | decodeTable => exact writeResult_response g g' rfl
  | _ => simp only [result, readResult_response g g']

/-- An operation that does not read the grid gives one response in every state. -/
theorem exec_response_of_not_readsGrid {i : Instr} (h : i.readsGrid = false) :
    ∃ r, ∀ s : State, ∃ g, exec i s = .next (s.answered g r) :=
  ⟨(result i Grid.empty).2, fun s => ⟨(result i s.grid).1, by
    rw [exec_eq, result_response_of_not_readsGrid h s.grid Grid.empty]⟩⟩

/-- A step that changes the grid took the reset input or an operation that writes the grid. -/
theorem step_grid_changed {s t : State} (hstep : step s = .next t) (hne : t.grid ≠ s.grid) :
    s.inputs.head? = some .reset ∨
      ∃ p rest, s.inputs = .present p :: rest ∧ p.instr.writesGrid = true := by
  obtain ⟨-, h⟩ | ⟨rest, hin, -⟩ | ⟨p, rest, hin, h⟩ := step_cases s
  · cases next_inj.mp (h.symm.trans hstep)
    exact absurd rfl hne
  · exact .inl (by rw [hin]; rfl)
  · cases next_inj.mp (h.symm.trans hstep)
    refine .inr ⟨p, rest, hin, ?_⟩
    by_contra hw
    exact hne (result_grid_of_not_writesGrid (Bool.eq_false_of_not_eq_true hw) s.grid)

/-! ### The obligations -/

/-- Settles O48, by the instruction's `result` and by what a step can do. -/
theorem gridIsAccessedOnlyByItsOperations : Obligations.GridIsAccessedOnlyByItsOperations := by
  refine ⟨fun i s => ⟨_, _, exec_eq i s, ?_⟩, fun i => ?_, fun s t hstep hne => ?_⟩
  · cases i with
    | tClear | tSet | tSetRow | tFromMasks | decodeTable => trivial
    | _ => exact result_grid_of_not_writesGrid rfl s.grid
  · cases i with
    | tMask | tToMasks | encodeTable => trivial
    | _ => exact exec_response_of_not_readsGrid rfl
  · simpa only [Instr.writesGrid_iff] using step_grid_changed hstep hne

/-- Settles O49: the next grid and the response are `result` of the instruction and the grid. -/
theorem onlyTheGridPersists : Obligations.OnlyTheGridPersists :=
  fun i g => ⟨(result i g).1, (result i g).2, fun s hs => hs ▸ exec_eq i s⟩

end Sys2Proof
end

section
/-!
PROOFS. The codec by positions: where `encode` puts each source byte (R63, R65), what `decode` reads, and the canonical
packets (R73).
-/
namespace Sys2Proof
open Sys2Proof.Machine

/-! ### The packed bytes of a source -/

/-- The data byte of source byte `i` (R63). -/
theorem getD_encodeBytes_data (src : List Byte) {i : Nat} (hi : i < src.length) :
    (encodeBytes src).getD (8 * (i / 7) + 1 + i % 7) 0 = lowBits (src.getD i 0) := by
  rw [getD_encodeBytes src (dataIndex_lt_plen hi), packedByte_data]

/-- The carry byte of group `g` (R63). -/
theorem getD_encodeBytes_carry (src : List Byte) {g : Nat} (hg : g < ceil7 src.length) :
    (encodeBytes src).getD (8 * g) 0 = carryByte src g := by
  rw [getD_encodeBytes src (by unfold plen; unfold ceil7 at *; omega), packedByte_carry]

/-- The slot of the byte at position `k` of a group (R65). -/
theorem getLsbD_carryByte_slot (src : List Byte) (g : Nat) {k : Nat} (hk : k < 7) :
    (carryByte src g).getLsbD (6 - k) = (src.getD (7 * g + k) 0).getLsbD 7 := by
  rw [getLsbD_carryByte, show 6 - (6 - k) = k by omega]
  simp; omega

/-- The carry bit of source byte `i` (R65). -/
theorem getLsbD_encodeBytes_carry (src : List Byte) {i : Nat} (hi : i < src.length) :
    ((encodeBytes src).getD (8 * (i / 7)) 0).getLsbD (6 - i % 7) = (src.getD i 0).getLsbD 7 := by
  rw [getD_encodeBytes_carry src (by unfold ceil7; omega), getLsbD_carryByte_slot src _ (by omega),
    show 7 * (i / 7) + i % 7 = i by omega]

/-- `encode` makes canonical packets (R73). -/
theorem isCanonical_encodeBytes (src : List Byte) : isCanonical (encodeBytes src) src.length := by
  intro g k hg hk hn
  rw [getD_encodeBytes_carry src hg, getLsbD_carryByte_slot src g hk,
    List.getD_eq_default _ _ hn]
  rfl

theorem isPacket_encodeBytes (src : List Byte) : isPacket (encodeBytes src) src.length :=
  (isPacket_iff _ _).2 ⟨length_encodeBytes src, sevenBitSafe_encodeBytes src⟩

/-! ### The source bytes of a packet -/

/-- A source byte is read from its data byte and its carry bit alone (R73). -/
theorem sourceByte_congr {p q : List Byte} {i : Nat}
    (hd : p.getD (8 * (i / 7) + 1 + i % 7) 0 = q.getD (8 * (i / 7) + 1 + i % 7) 0)
    (hc : (p.getD (8 * (i / 7)) 0).getLsbD (6 - i % 7) = (q.getD (8 * (i / 7)) 0).getLsbD (6 - i % 7)) :
    sourceByte p i = sourceByte q i := by
  apply BitVec.eq_of_getLsbD_eq
  intro j _
  rw [getLsbD_sourceByte, getLsbD_sourceByte, hd, carrySlot, hc]

theorem sourceByte_encodeBytes (src : List Byte) {i : Nat} (hi : i < src.length) :
    sourceByte (encodeBytes src) i = src.getD i 0 := by
  apply BitVec.eq_of_getLsbD_eq
  intro j hj
  rw [getLsbD_sourceByte, carrySlot, getLsbD_encodeBytes_carry src hi, getD_encodeBytes_data src hi,
    getLsbD_lowBits]
  by_cases h7 : j = 7
  · rw [if_pos h7, h7]
  · simp [h7, show j < 7 by omega]

theorem map_sourceByte_encodeBytes (src : List Byte) :
    (List.range src.length).map (sourceByte (encodeBytes src)) = src := by
  apply List.ext_getElem (by simp)
  intro i _ hi
  rw [List.getElem_map, List.getElem_range, sourceByte_encodeBytes src hi, List.getD_eq_getElem _ 0 hi]

/-- `decode` gives back the source of an encoded packet, whether or not it is strict (R73, R97). -/
theorem decodeBytes_encodeBytes (P : Params) (src : List Byte) :
    decodeBytes P (encodeBytes src) src.length = .ok src :=
  (decodeBytes_ok_iff ..).2 ⟨length_encodeBytes src, sevenBitSafe_encodeBytes src,
    fun _ => (canonical_iff _ _).2 (isCanonical_encodeBytes src), (map_sourceByte_encodeBytes src).symm⟩

/-- What `STRICT_CARRY` adds to `decode` (R73). -/
theorem decodeBytes_strict (P : Params) (p : List Byte) (n : Nat) :
    decodeBytes { P with strictCarry := true } p n =
      if canonical p n then decodeBytes { P with strictCarry := false } p n
      else .error .malformedPacket := by
  unfold decodeBytes
  by_cases hc : canonical p n = true
  · simp [hc]
  · simp [hc]

/-- Every byte of a packet has bit 7 clear, an index outside it among them (R65, R66). -/
theorem getLsbD_getD_of_isPacket {p : List Byte} {n : Nat} (h : isPacket p n) (j : Nat) :
    (p.getD j 0).getLsbD 7 = false := by
  by_cases hj : j < p.length
  · rw [List.getD_eq_getElem _ _ hj]; exact h.2 _ (List.getElem_mem hj)
  · rw [List.getD_eq_default _ _ (by omega)]; rfl

/-- The carry byte that the source bytes of a canonical packet make is the packet's. -/
theorem carryByte_map_sourceByte {p : List Byte} {n g : Nat} (h : isPacket p n) (hc : isCanonical p n)
    (hg : g < ceil7 n) : carryByte ((List.range n).map (sourceByte p)) g = p.getD (8 * g) 0 := by
  apply BitVec.eq_of_getLsbD_eq
  intro j hj
  by_cases h7 : j = 7
  · subst h7
    rw [getLsbD_carryByte, getLsbD_getD_of_isPacket h]; rfl
  obtain ⟨k, hk, rfl⟩ : ∃ k, k < 7 ∧ j = 6 - k := ⟨6 - j, by omega, by omega⟩
  rw [getLsbD_carryByte_slot _ g hk]
  by_cases hn : 7 * g + k < n
  · rw [getD_map_range _ hn, getLsbD_sourceByte, if_pos rfl, carrySlot,
      show (7 * g + k) / 7 = g by omega, show (7 * g + k) % 7 = k by omega]
  · rw [hc g k hg hk (by omega), List.getD_eq_default _ _ (by simp; omega)]; rfl

/-- The data byte that a source byte of a packet makes is the packet's. -/
theorem lowBits_sourceByte {p : List Byte} {n : Nat} (h : isPacket p n) (i : Nat) :
    lowBits (sourceByte p i) = p.getD (8 * (i / 7) + 1 + i % 7) 0 := by
  apply BitVec.eq_of_getLsbD_eq
  intro j hj
  rw [getLsbD_lowBits, getLsbD_sourceByte]
  by_cases h7 : j = 7
  · subst h7
    rw [getLsbD_getD_of_isPacket h]; rfl
  · simp [h7, show j < 7 by omega]

/-- `encode` undoes `decode` on a canonical packet (R73). -/
theorem encodeBytes_map_sourceByte {p : List Byte} {n : Nat} (h : isPacket p n) (hc : isCanonical p n) :
    encodeBytes ((List.range n).map (sourceByte p)) = p := by
  have hlen : p.length = plen n := h.1
  apply List.ext_getElem (by simp [hlen])
  intro j hj hjp
  rw [← List.getD_eq_getElem _ 0 hj, ← List.getD_eq_getElem _ 0 hjp]
  rw [hlen] at hjp
  by_cases h8 : j % 8 = 0
  · obtain ⟨g, rfl⟩ : ∃ g, j = 8 * g := ⟨j / 8, by omega⟩
    have hg : g < ceil7 n := by unfold plen at hjp; unfold ceil7 at *; omega
    rw [getD_encodeBytes_carry _ (by simpa using hg), carryByte_map_sourceByte h hc hg]
  · obtain ⟨i, rfl⟩ : ∃ i, j = 8 * (i / 7) + 1 + i % 7 := ⟨7 * (j / 8) + (j % 8 - 1), by omega⟩
    have hi : i < n := by unfold plen ceil7 at hjp; omega
    rw [getD_encodeBytes_data _ (by simpa using hi), getD_map_range _ hi, lowBits_sourceByte h]

/-- `encode` undoes `decode` exactly on the canonical packets (R73). -/
theorem encodeBytes_eq_iff_isCanonical {P : Params} {p out : List Byte} {n : Nat}
    (h : decodeBytes P p n = .ok out) : encodeBytes out = p ↔ isCanonical p n := by
  obtain ⟨hlen, hsafe, -, rfl⟩ := (decodeBytes_ok_iff ..).1 h
  refine ⟨fun he => ?_, encodeBytes_map_sourceByte ((isPacket_iff p n).2 ⟨hlen, hsafe⟩)⟩
  simpa [he] using isCanonical_encodeBytes ((List.range n).map (sourceByte p))

/-! ### The obligations -/

/-- Settles O14, by the packed byte at each position and the bits of a carry byte. -/
theorem encodePlacesEverySourceByte : Obligations.EncodePlacesEverySourceByte := fun src =>
  ⟨length_encodeBytes src,
    fun _ hi => ⟨getD_encodeBytes_data src hi, getLsbD_encodeBytes_carry src hi⟩,
    fun g hg => ⟨getLsbD_getD_of_isPacket (isPacket_encodeBytes src) (8 * g),
      fun k hk hn => isCanonical_encodeBytes src g k hg hk hn⟩⟩

/-- Settles O18, by what a source byte is read from and by what `STRICT_CARRY` adds. -/
theorem unusedCarrySlotsAreIgnoredUnlessStrict : Obligations.UnusedCarrySlotsAreIgnoredUnlessStrict := by
  refine ⟨fun P src => ⟨isCanonical_encodeBytes src, decodeBytes_encodeBytes _ src⟩,
    fun P p n => ⟨fun q hp hq hused => ?_, fun hc => ?_, fun hc => ?_, fun out hout => ?_⟩⟩
  · have hsame : (List.range n).map (sourceByte q) = (List.range n).map (sourceByte p) :=
      List.map_congr_left fun i hi =>
        have ⟨hd, hb⟩ := hused i (List.mem_range.1 hi)
        sourceByte_congr hd.symm hb.symm
    exact ⟨_, decodeBytes_of_isPacket rfl hp, hsame ▸ decodeBytes_of_isPacket rfl hq⟩
  · rw [decodeBytes_strict, if_pos ((canonical_iff p n).2 hc)]
  · rw [decodeBytes_strict, if_neg (mt (canonical_iff p n).1 hc)]
  · exact encodeBytes_eq_iff_isCanonical hout

end Sys2Proof
end

section
/-!
PROOFS. The encodings of a request and of a frame: the selectors (R75), the reserved encodings (R77), the frames of the
protocol (R62).
-/
namespace Sys2Proof
open Sys2Proof.Machine

/-- The length of a frame laid out from its fields (R60). -/
theorem length_toBytes_frameOf (m o d c : Byte) (p : List Septet) :
    (frameOf m o d c p).toBytes.2.length = p.length + 6 := by
  simp [frameOf, Presented.toBytes]

/-- Settles O4: each selector's arm of `Request.instr`. -/
theorem selectorsNameTheirOperations : Obligations.SelectorsNameTheirOperations :=
  fun _ _ _ _ _ => ⟨rfl, rfl, rfl, rfl, rfl, rfl, rfl, rfl, rfl, rfl, rfl, rfl, rfl, rfl, rfl, rfl⟩

/-- Settles O5: each row's frame is `frameOf` its fields, whose length is six more than the payload's. -/
theorem protocolFramesHaveTheirBytes : Obligations.ProtocolFramesHaveTheirBytes := by
  refine fun m o d p x => ⟨rfl, rfl, rfl, rfl, rfl, rfl, rfl, fun h => ?_, fun h => ?_, rfl⟩
  · have hp : p.length = 20 := by simpa [Instr.wellFormed] using h
    exact (length_toBytes_frameOf m o d 0x02 p).trans (by rw [hp])
  · have hp : p.length = 20 := by simpa [Instr.wellFormed] using h
    exact (length_toBytes_frameOf m o d 0x03 p).trans (by rw [hp])

/-- Settles O10: the reserved arm answers the error, and the three operations read bit 0 of `C`. -/
theorem reservedRequestEncodings : Obligations.ReservedRequestEncodings := by
  refine ⟨fun _ _ _ _ _ s => exec_eq .reserved0 s, exec_eq .reserved0, fun op a b c c' d inp hop hc => ?_⟩
  have h0 : bit0 c = bit0 c' := hc
  obtain rfl | rfl | rfl := hop
  · exact congrArg (Instr.tSet a b) h0
  · exact congrArg (Instr.tSetRow a) h0
  · exact congrArg (fun v => Instr.pCheck a b (if v then .response else .request)) h0

end Sys2Proof
end

section
/-!
PROOFS. The collaborator-facing operations as compositions of primitive ones (R79), and the layout of the packed table
(R64).
-/
namespace Sys2Proof
open Sys2Proof.Machine

/-! ### What an answer says of the operation -/

theorem answer_eq_ok_iff {s : State} {x : Except Err Reply} {out : List Byte} :
    s.answer x = .next (s.answered s.grid (okResponse 0 0 0 0 out)) ↔ x = .ok { out := out } := by
  refine ⟨fun h => ?_, fun h => h ▸ answer_ok s _⟩
  cases x with
  | ok r =>
    have hr := (answered_inj.1 (next_inj.1 ((answer_ok s r).symm.trans h))).2
    obtain ⟨r0, r1, r2, r3, out'⟩ := r
    simpa [okResponse] using hr
  | error e =>
    have hr := (answered_inj.1 (next_inj.1 ((answer_error s e).symm.trans h))).2
    exact absurd (congrArg Response.err hr) (by simp)

theorem answer_eq_error_iff {s : State} {x : Except Err Reply} {e : Err} :
    s.answer x = .next (s.answered s.grid (errorResponse e)) ↔ x = .error e := by
  refine ⟨fun h => ?_, fun h => h ▸ answer_error s e⟩
  cases x with
  | ok r =>
    have hr := (answered_inj.1 (next_inj.1 ((answer_ok s r).symm.trans h))).2
    exact absurd (congrArg Response.err hr) (by simp)
  | error e' =>
    have hr := (answered_inj.1 (next_inj.1 ((answer_error s e').symm.trans h))).2
    simpa using congrArg Response.err hr

/-! ### The table -/

/-- `DECODE_TABLE` is `T_FROM_MASKS` of what `DECODE` with `n` = 17 answers, or `DECODE`'s error (R79). -/
theorem opDecodeTable_eq_bind (p : List Byte) :
    opDecodeTable Config.params p =
      (opDecode Config.params 17 p).bind fun r => opFromMasks r.out := by
  obtain ⟨hover, hbad, hok⟩ := opDecode_spec 17 p
  obtain ⟨hover', hbad', hok'⟩ := opDecodeTable_spec p
  by_cases hlen : 27 ≤ p.length
  · rw [hover hlen, hover' hlen]; rfl
  · by_cases hp : isPacket p 17
    · rw [hok (by omega) hp, hok' hp]; rfl
    · rw [hbad (by omega) hp, hbad' (by omega) hp]; rfl

/-- The 17 masks' bits in the packed table's data bytes (R64). -/
theorem getLsbD_encodeBytes_toMasks_data (g : Grid) (d : Fin 17) {o : Fin 8} (ho : o.val < 7) :
    ((encodeBytes (toMasks g)).getD (8 * (d.val / 7) + 1 + d.val % 7) 0).getLsbD o.val = g.cell o d := by
  rw [getD_encodeBytes_data _ (by simp), getD_toMasks, getLsbD_lowBits, getLsbD_channelMask]
  simp [ho]

/-- The 17 masks' bits in the packed table's carry bytes (R64). -/
theorem getLsbD_encodeBytes_toMasks_carry (g : Grid) (d : Fin 17) :
    ((encodeBytes (toMasks g)).getD (8 * (d.val / 7)) 0).getLsbD (6 - d.val % 7) = g.cell 7 d := by
  rw [getLsbD_encodeBytes_carry _ (by simp), getD_toMasks]
  exact getLsbD_channelMask g d 7

/-- The four slots beyond mask 16 (R64). -/
theorem getLsbD_encodeBytes_toMasks_unused (g : Grid) {j : Nat} (hj : j < 4) :
    ((encodeBytes (toMasks g)).getD 16 0).getLsbD j = false := by
  have h := isCanonical_encodeBytes (toMasks g) 2 (6 - j) (by simp) (by omega) (by simp; omega)
  rwa [show 6 - (6 - j) = j by omega] at h

/-! ### The request and the response -/

/-- `P_CHECK` of a payload's length is `check` of it, for a payload within capacity. -/
theorem opCheck_ofNat (c : Byte) {n : Nat} (hn : n ≤ 26) :
    opCheck Config.params c (BitVec.ofNat 8 n) .request =
      (checkCommand Config.params c n .request).map fun _ => {} := by
  rw [opCheck, BitVec.toNat_ofNat, Nat.mod_eq_of_lt (by omega)]

/-- `check` of a request with a command of the codeset (R156). -/
theorem checkCommand_request {c : Byte} (hc : c ∈ commandBytes) (len : Nat) :
    checkCommand Config.params c len .request =
      if len = requestLength c then .ok () else .error .malformedPacket := by
  rw [(checkCommand_spec c len .request).2 hc]
  simp only [lengthOk, requestLengthOk_iff hc]

/-- `BUILD_REQUEST` after the capacity: `check`'s error, or `F_BUILD` with the block's identifiers (R79). -/
theorem opBuildRequest_eq_bind (c d : Byte) {p : List Byte} (hp : p.length ≤ 26) :
    opBuildRequest Config.params c d p =
      (opCheck Config.params c (BitVec.ofNat 8 p.length) .request).bind fun _ =>
        opBuild Config.params ⟨Config.mfgId, Config.modelId, d, c, p⟩ := by
  obtain ⟨-, hunknown, hlength, hunsafe, hsafe⟩ := opBuildRequest_spec c d p
  obtain ⟨hbuild, hviolation⟩ := opBuild_spec ⟨Config.mfgId, Config.modelId, d, c, p⟩
  rw [opCheck_ofNat c hp]
  by_cases hc : c ∈ commandBytes
  · by_cases hl : p.length = requestLength c
    · have hle := requestLength_le c
      rw [checkCommand_request hc, if_pos hl]
      by_cases hs : ∀ b ∈ p, b.getLsbD 7 = false
      · rw [hsafe hc hl hs]; exact (hbuild (by simp only; omega) hs).symm
      · have hs' : ∃ b ∈ p, b.getLsbD 7 = true := by simpa using hs
        rw [hunsafe hc hl hs']; exact (hviolation (.inr hs')).symm
    · rw [hlength hp hc hl, checkCommand_request hc, if_neg hl]; rfl
  · rw [hunknown hp hc, (checkCommand_spec c p.length .request).1 hc]; rfl

/-- `PARSE_RESPONSE` is `F_PARSE` but for a frame within capacity whose command is none of the four (R79). -/
theorem opParseResponse_eq_opParse {f : List Byte}
    (h : ¬ isFrame f ∨ f.getD 4 0 ∈ commandBytes ∨ 27 ≤ f.length) :
    opParseResponse Config.params f = opParse Config.params f := by
  obtain ⟨hover, hbad, -, hok⟩ := opParseResponse_spec f
  obtain ⟨hover', hbad', hok'⟩ := parseWithin_spec f
  unfold opParse
  by_cases hlen : 27 ≤ f.length
  · rw [hover hlen, hover' hlen]; rfl
  · by_cases hf : isFrame f
    · have hc : f.getD 4 0 ∈ commandBytes := by tauto
      rw [hok (by omega) hf hc, hok' (by omega) hf]; rfl
    · rw [hbad (by omega) hf, hbad' (by omega) hf]; rfl

/-! ### The obligations -/

/-- Settles O30: the answer is `encode` of the masks, whose bits are the cells. -/
theorem encodeTableLaysOutTheGrid : Obligations.EncodeTableLaysOutTheGrid := fun s =>
  ⟨encodeBytes (toMasks s.grid), fun _ _ _ _ _ => rfl, exec_eq .encodeTable s,
    (length_encodeBytes _).trans (congrArg plen (length_toMasks _)),
    (sevenBitSafe_iff _).1 (sevenBitSafe_encodeBytes _),
    fun d _ ho => getLsbD_encodeBytes_toMasks_data s.grid d ho,
    getLsbD_encodeBytes_toMasks_carry s.grid,
    fun _ hj => getLsbD_encodeBytes_toMasks_unused s.grid hj⟩

/-- Settles O34: `DECODE_TABLE` and `BUILD_REQUEST` are their primitives run one after the other, and `PARSE_RESPONSE`
is `F_PARSE` where it does not test the command. -/
theorem compositesAreTheirPrimitives : Obligations.CompositesAreTheirPrimitives := by
  refine ⟨fun s => ⟨toMasks s.grid, encodeBytes (toMasks s.grid), exec_eq .tToMasks s, ?_,
    exec_eq .encodeTable s⟩, fun p m s h => ?_, fun p e s h => ?_, fun c d p s hp h => ?_,
    fun c d p e s hp h => ?_, fun f s => ⟨fun hf hc hlen => ?_, fun h => ?_⟩⟩
  · exact answer_eq_ok_iff.2 (by rw [opEncode_spec, if_pos (by simp)])
  · have hdecode : opDecode Config.params 17 p = .ok { out := m } := answer_eq_ok_iff.1 h
    exact congrArg s.commit (by rw [opDecodeTable_eq_bind, hdecode]; rfl)
  · have hdecode : opDecode Config.params 17 p = .error e := answer_eq_error_iff.1 h
    have htable : opDecodeTable Config.params p = .error e := by rw [opDecodeTable_eq_bind, hdecode]; rfl
    exact (congrArg s.commit htable).trans h.symm
  · have hcheck := answer_eq_ok_iff.1 h
    exact congrArg s.answer (by rw [opBuildRequest_eq_bind c d hp, hcheck]; rfl)
  · have hcheck := answer_eq_error_iff.1 h
    exact answer_eq_error_iff.2 (by rw [opBuildRequest_eq_bind c d hp, hcheck]; rfl)
  · obtain ⟨-, -, hunknown, -⟩ := opParseResponse_spec f
    exact answer_eq_error_iff.2 (hunknown hlen hf hc)
  · exact congrArg s.answer (opParseResponse_eq_opParse h)

end Sys2Proof
end

section
/-!
PROOFS. `ENCODE` and `DECODE` (spec/40_codec.md): the loop of R91's pseudocode computes the packed bytes by position,
the properties of `encode` that R92 names, and the operations' answers (R91, R94, R95).
-/
namespace Sys2Proof
open Sys2Proof.Machine

/-! ### The loop of R91 -/

theorem packedByte_nil (j : Nat) : packedByte [] j = 0 := by
  apply BitVec.eq_of_getLsbD_eq
  intro b _
  unfold packedByte
  split
  · rw [getLsbD_carryByte]; simp
  · rw [getLsbD_lowBits]; simp

theorem getD_take_succ_of_ne (src : List Byte) {m i : Nat} (h : i ≠ m) :
    (src.take (m + 1)).getD i 0 = (src.take m).getD i 0 := by
  simp only [List.getD_eq_getElem?_getD, List.getElem?_take, show i < m + 1 ↔ i < m by omega]

theorem getD_take_succ_self (src : List Byte) (m : Nat) :
    (src.take (m + 1)).getD m 0 = src.getD m 0 := by
  simp [List.getD_eq_getElem?_getD]

/-- The packed bytes that source byte `m` does not go to. -/
theorem packedByte_take_succ_of_ne (src : List Byte) {m j : Nat} (hcarry : j ≠ 8 * (m / 7))
    (hdata : j ≠ 8 * (m / 7) + 1 + m % 7) :
    packedByte (src.take (m + 1)) j = packedByte (src.take m) j := by
  unfold packedByte
  split
  · apply BitVec.eq_of_getLsbD_eq
    intro b _
    rw [getLsbD_carryByte, getLsbD_carryByte, getD_take_succ_of_ne src (by omega)]
  · rw [getD_take_succ_of_ne src (by omega)]

/-- The data byte of source byte `m`. -/
theorem packedByte_take_succ_data (src : List Byte) (m : Nat) :
    packedByte (src.take (m + 1)) (8 * (m / 7) + 1 + m % 7) = lowBits (src.getD m 0) := by
  rw [packedByte_data, getD_take_succ_self]

/-- The carry byte of source byte `m` is that of the bytes before it with the bit of its own slot. -/
theorem packedByte_take_succ_carry (src : List Byte) (m : Nat) :
    packedByte (src.take (m + 1)) (8 * (m / 7)) =
      packedByte (src.take m) (8 * (m / 7)) ||| (bitAt (src.getD m 0) 7 <<< carrySlot (m % 7)) := by
  rw [packedByte_carry, packedByte_carry, carrySlot]
  apply BitVec.eq_of_getLsbD_eq
  intro j hj
  rw [BitVec.getLsbD_or, getLsbD_carryByte, getLsbD_carryByte, getLsbD_bitAt_shiftLeft _ _ (by omega) hj]
  by_cases hslot : j = 6 - m % 7
  · have hm : 7 * (m / 7) + (6 - j) = m := by omega
    rw [hm, getD_take_succ_self, List.getD_eq_default (src.take m) 0 (by simp)]
    simp [hslot]; omega
  · by_cases h7 : j < 7
    · rw [getD_take_succ_of_ne src (by omega)]; simp [hslot]
    · simp [h7, hslot]

/-- One turn of the loop adds one source byte. -/
theorem encodeTurn_packedByte_take (src : List Byte) {m : Nat} (hm : m < src.length) :
    encodeTurn src ((List.range (plen src.length)).map (packedByte (src.take m))) m =
      (List.range (plen src.length)).map (packedByte (src.take (m + 1))) := by
  have hcarry := carryIndex_lt_plen hm
  apply List.ext_getElem (by simp [encodeTurn])
  intro j _ hj
  by_cases hjc : j = 8 * (m / 7)
  · subst hjc
    simp [encodeTurn, packedByte_take_succ_carry, hcarry,
      show 8 * (m / 7) + 1 + m % 7 ≠ 8 * (m / 7) by omega]
  · by_cases hjd : j = 8 * (m / 7) + 1 + m % 7
    · subst hjd
      simp [encodeTurn, packedByte_take_succ_data,
        show 8 * (m / 7) ≠ 8 * (m / 7) + 1 + m % 7 by omega]
    · simp [encodeTurn, packedByte_take_succ_of_ne src hjc hjd, Ne.symm hjc, Ne.symm hjd]

/-- The loop's invariant: after `m` turns it holds the packed bytes of the first `m` source bytes, laid out for the
whole length, so the slots and the data bytes of the later ones are still 0. -/
theorem foldl_encodeTurn_range (src : List Byte) {m : Nat} (hm : m ≤ src.length) :
    (List.range m).foldl (encodeTurn src) (List.replicate (plen src.length) 0) =
      (List.range (plen src.length)).map (packedByte (src.take m)) := by
  induction m with
  | zero =>
    refine (List.eq_replicate_iff.2 ⟨by simp, fun b hb => ?_⟩).symm
    obtain ⟨j, -, rfl⟩ := List.mem_map.1 hb
    rw [List.take_zero, packedByte_nil]
  | succ m ih =>
    rw [List.range_succ, List.foldl_append, ih (by omega)]
    exact encodeTurn_packedByte_take src hm

/-- The loop computes the packed bytes by position (R63, R91). -/
theorem encodeLoop_eq_encodeBytes (src : List Byte) : encodeLoop src = encodeBytes src := by
  rw [encodeLoop, foldl_encodeTurn_range src le_rfl, List.take_length, encodeBytes]

/-! ### The placement by groups (R92) -/

/-- The data byte of the source byte at position `k` of group `g`. -/
theorem getD_encodeBytes_group_data (src : List Byte) {g k : Nat} (hk : k < 7) (hi : 7 * g + k < src.length) :
    (encodeBytes src).getD (8 * g + 1 + k) 0 = lowBits (src.getD (7 * g + k) 0) := by
  have h := getD_encodeBytes_data src hi
  rwa [show (7 * g + k) / 7 = g by omega, show (7 * g + k) % 7 = k by omega] at h

/-- The slot of position `k` in the carry byte of group `g`. -/
theorem getLsbD_encodeBytes_group_carry (src : List Byte) {g k : Nat} (hg : g < ceil7 src.length) (hk : k < 7) :
    ((encodeBytes src).getD (8 * g) 0).getLsbD (6 - k) = (src.getD (7 * g + k) 0).getLsbD 7 := by
  rw [getD_encodeBytes_carry src hg, getLsbD_carryByte_slot src g hk]

/-- A byte of whose bits only 6, 5 and 4 may be set is a multiple of 16 up to `0x70`. -/
theorem mem_multiplesOf16_of_getLsbD {b : Byte} (h7 : b.getLsbD 7 = false) (hlow : ∀ j < 4, b.getLsbD j = false) :
    b ∈ ([0x00, 0x10, 0x20, 0x30, 0x40, 0x50, 0x60, 0x70] : List Byte) := by
  have hb : b = (b.extractLsb' 4 3).setWidth 8 <<< 4 := by
    apply BitVec.eq_of_getLsbD_eq
    intro j hj
    rw [BitVec.getLsbD_shiftLeft, BitVec.getLsbD_setWidth, BitVec.getLsbD_extractLsb']
    by_cases hj4 : j < 4
    · simp [hlow j hj4, hj4]
    · rw [show 4 + (j - 4) = j by omega]
      by_cases hj7 : j = 7
      · subst hj7; rw [h7]; simp
      · simp [hj4, hj, show j - 4 < 8 by omega, show j - 4 < 3 by omega]
  have hall : ∀ x : BitVec 3, x.setWidth 8 <<< 4 ∈
      ([0x00, 0x10, 0x20, 0x30, 0x40, 0x50, 0x60, 0x70] : List Byte) := by decide
  rw [hb]; exact hall _

/-- The last carry byte of 17 source bytes: its group has three, whose slots are bits 6, 5 and 4. -/
theorem lastCarryByte_mem {src : List Byte} (h17 : src.length = 17) : (encodeBytes src).getD 16 0 ∈
    ([0x00, 0x10, 0x20, 0x30, 0x40, 0x50, 0x60, 0x70] : List Byte) := by
  have hcarry : (encodeBytes src).getD 16 0 = carryByte src 2 :=
    getD_encodeBytes_carry src (g := 2) (by rw [h17]; decide)
  rw [hcarry]
  refine mem_multiplesOf16_of_getLsbD (getLsbD_carryByte src 2 7) fun j hj => ?_
  rw [getLsbD_carryByte, List.getD_eq_default src 0 (by omega)]
  simp

/-! ### The obligations -/

/-- Settles O11, by the loop's equality with the packed bytes by position. -/
theorem encodeAnswersThePackedBytes : Obligations.EncodeAnswersThePackedBytes := by
  refine fun src s => ⟨fun _ _ _ _ => rfl, fun h => ?_, fun h => ?_⟩
  · rw [encodeLoop_eq_encodeBytes]
    exact answer_eq_ok_iff.2 (by rw [opEncode_spec, if_pos h])
  · exact answer_eq_error_iff.2 (by rw [opEncode_spec, if_neg (by omega)])

/-- Settles O13, by the packed byte at each position; 17 bytes make groups of 7, 7 and 3. -/
theorem encodeHasTheStatedProperties : Obligations.EncodeHasTheStatedProperties := by
  refine fun src => ⟨(sevenBitSafe_iff _).1 (sevenBitSafe_encodeBytes src), length_encodeBytes src,
    fun h17 => ?_⟩
  have hdata {g k : Nat} (hk : k < 7) (hi : 7 * g + k < 17) := getD_encodeBytes_group_data src hk (h17 ▸ hi)
  have hcarry {g k : Nat} (hg : g < 3) (hk : k < 7) :=
    getLsbD_encodeBytes_group_carry src (h17 ▸ hg : g < ceil7 src.length) hk
  refine ⟨by rw [length_encodeBytes, h17]; rfl, fun i hi => ?_, fun i hi => hdata (g := 1) hi (by omega),
    fun i hi => hdata (g := 2) (by omega) (by omega), fun i hi => ?_, fun i hi => hcarry (g := 1) (by omega) hi,
    fun i hi => hcarry (g := 2) (by omega) (by omega), lastCarryByte_mem h17⟩
  · simpa [lowBits] using hdata (g := 0) hi (by omega)
  · simpa using hcarry (g := 0) (by omega) hi

/-- Settles O15, by what `DECODE` answers in each case; a source byte is R95's expression. -/
theorem decodeAnswersTheSourceBytes : Obligations.DecodeAnswersTheSourceBytes := by
  intro n p s
  obtain ⟨hover, hbad, hok⟩ := opDecode_spec n p
  exact ⟨fun _ _ _ => rfl, fun h => answer_eq_error_iff.2 (hover h),
    fun h hp => answer_eq_error_iff.2 (hbad h hp),
    fun h hp => ⟨(List.range n.toNat).map (sourceByte p), answer_eq_ok_iff.2 (hok h hp), by simp,
      fun _ hi => getD_map_range (sourceByte p) hi⟩⟩

end Sys2Proof
end

section
/-!
PROOFS. The operations of the routing table (spec/41_routing_table.md): what each writes cell by cell (R110, R111, R115),
the masks it answers with (R114), and the run of `T_SET_ROW` requests that empties the grid (R110).
-/
namespace Sys2Proof
open Sys2Proof.Machine

/-! ### Emptying outputs one after another -/

/-- The host presents `T_SET_ROW` with `output` = `o` and `enabled` = 0. -/
def clearRowRequest (o : Fin 8) : HostEvent := .present (.request ⟨0x5, BitVec.ofNat 8 o.val, 0, 0, 0, []⟩)

/-- Every output is a byte that `T_SET_ROW` takes (R112). -/
theorem opSetRow_ofNat (o : Fin 8) (v : Bool) (g : Grid) :
    opSetRow (BitVec.ofNat 8 o.val) v g = .ok (g.setRow o v) := by
  have ho : (BitVec.ofNat 8 o.val).toNat = o.val := Nat.mod_eq_of_lt (by omega)
  obtain ⟨hok, -⟩ := opSetRow_spec (BitVec.ofNat 8 o.val) v g
  simpa only [ho] using hok (by omega)

/-- The selector of `T_SET_ROW` (R75, R76). -/
theorem instr_setRow (a b c d : Byte) (inp : List Byte) :
    (⟨0x5, a, b, c, d, inp⟩ : Request).instr = .tSetRow a (bit0 c) := rfl

theorem instr_clearRow (a : Byte) : (⟨0x5, a, 0, 0, 0, []⟩ : Request).instr = .tSetRow a false := by
  have h0 : bit0 0 = false := by decide
  rw [instr_setRow, h0]

/-- A step that takes a `clearRowRequest` empties the cells of its output (R112). -/
theorem step_clearRowRequest {s : State} {o : Fin 8} {rest : List HostEvent}
    (h : s.inputs = clearRowRequest o :: rest) :
    step s = .next ((s.setInputs rest).answered (s.grid.setRow o false) (okResponse 0 0 0 0 [])) := by
  calc step s = exec (.tSetRow (BitVec.ofNat 8 o.val) false) (s.setInputs rest) := by
        rw [step, h, ← instr_clearRow]; rfl
    _ = (s.setInputs rest).commit (opSetRow (BitVec.ofNat 8 o.val) false s.grid) := rfl
    _ = _ := by rw [opSetRow_ofNat, commit_ok]

/-- A run of one step more is the step and the run from where it ends. -/
theorem run_succ_of_step {s t : State} (h : step s = .next t) (k : Nat) :
    Host.Core.run core (k + 1) s = Host.Core.run core k t := by
  have hstep : core.step s = .next t := h
  simp [Host.Core.run, hstep]

/-- A run of `clearRowRequest`s empties the outputs they name and leaves the others as they were. -/
theorem run_clearRowRequests (os : List (Fin 8)) (s : State) (h : s.inputs = os.map clearRowRequest) :
    ∃ t : State, Host.Core.run core os.length s = .next t ∧
      ∀ o d, t.grid.cell o d = if o ∈ os then false else s.grid.cell o d := by
  induction os generalizing s with
  | nil => exact ⟨s, rfl, fun o d => (if_neg List.not_mem_nil).symm⟩
  | cons o os ih =>
    have hstep := step_clearRowRequest h
    obtain ⟨t, hrun, hcell⟩ := ih _ (answered_inputs (s.setInputs _) _ _)
    refine ⟨t, (run_succ_of_step hstep os.length).trans hrun, fun o' d => ?_⟩
    rw [hcell, answered_grid, cell_setRow]
    by_cases ho : o' = o
    · simp [ho]
    · simp [ho]

/-! ### Rebuilding the grid -/

/-- `T_FROM_MASKS` (R115). -/
theorem opFromMasks_spec (m : List Byte) :
    (m.length = 17 → opFromMasks m = .ok (fromMasks m)) ∧
    (m.length ≠ 17 → opFromMasks m = .error .contractViolation) :=
  ⟨fun h => if_neg (not_not_intro h), fun h => if_pos h⟩

/-! ### The obligations -/

/-- Settles O19: the run of the eight requests empties every output, and grids with equal cells are equal. -/
theorem clearEmptiesEveryCell : Obligations.ClearEmptiesEveryCell := by
  intro s
  obtain ⟨t, hrun, hcell⟩ := run_clearRowRequests (List.finRange 8)
    (s.setInputs ((List.finRange 8).map clearRowRequest)) rfl
  refine ⟨Grid.ofCells fun _ _ => false, fun _ _ _ _ _ => rfl, exec_eq .tClear s, cell_ofCells _, t, hrun,
    grid_ext fun o d => ?_⟩
  rw [hcell, if_pos (List.mem_finRange o), cell_ofCells]

/-- Settles O20, by what `T_SET` does with indices in range and out of range. -/
theorem setWritesOneCell : Obligations.SetWritesOneCell := by
  intro a b c s
  obtain ⟨hok, hbad⟩ := opSet_spec a b (c.getLsbD 0) s.grid
  refine ⟨fun _ _ => rfl, fun ha hb => ⟨s.grid.setCell ⟨_, ha⟩ ⟨_, hb⟩ (c.getLsbD 0),
    congrArg s.commit (hok ha hb), fun o d => ?_⟩,
    fun h => congrArg s.commit (hbad h)⟩
  simp only [cell_setCell, Fin.ext_iff]

/-- Settles O23: the masks are those of the grid's view, whose bits are the cells. -/
theorem toMasksListsEveryMask : Obligations.ToMasksListsEveryMask := fun s =>
  ⟨toMasks s.grid, fun _ _ _ _ _ => rfl, exec_eq .tToMasks s, length_toMasks s.grid,
    fun o d => by rw [getD_toMasks, getLsbD_channelMask]⟩

/-- Settles O24: each cell of the rebuilt grid is its mask's bit. -/
theorem fromMasksRebuildsTheGrid : Obligations.FromMasksRebuildsTheGrid := by
  intro masks s
  obtain ⟨hok, hbad⟩ := opFromMasks_spec masks
  exact ⟨fun _ _ _ _ => rfl,
    fun h => ⟨fromMasks masks, congrArg s.commit (hok h), cell_fromMasks masks⟩,
    fun h => congrArg s.commit (hbad h)⟩

end Sys2Proof
end

section
/-!
PROOFS. The frame operations (spec/42_frame.md): what `F_BUILD` assembles (R131, R132) and what `F_PARSE` answers (R134).
-/
namespace Sys2Proof
open Sys2Proof.Machine

/-- `F_PARSE` (R134): the parsed message in the response's fields. -/
theorem opParse_spec (f : List Byte) :
    (27 ≤ f.length → opParse Config.params f = .error .contractViolation) ∧
    (f.length ≤ 26 → ¬ isFrame f → opParse Config.params f = .error .frameError) ∧
    (f.length ≤ 26 → isFrame f → opParse Config.params f =
      .ok ⟨f.getD 1 0, f.getD 2 0, f.getD 3 0, f.getD 4 0, framePayload f⟩) := by
  obtain ⟨hover, hbad, hok⟩ := parseWithin_spec f
  unfold opParse
  exact ⟨fun h => by rw [hover h]; rfl, fun h hf => by rw [hbad h hf]; rfl,
    fun h hf => by rw [hok h hf]; rfl⟩

/-! ### The obligations -/

/-- Settles O26, by what `F_BUILD` answers on either side of the payload assertion. -/
theorem buildAssemblesTheFrame : Obligations.BuildAssemblesTheFrame := by
  intro a b c d p s
  obtain ⟨hok, hbad⟩ := opBuild_spec ⟨a, b, c, d, p⟩
  exact ⟨rfl, fun hlen hsafe => answer_eq_ok_iff.2 (hok hlen hsafe),
    fun h => answer_eq_error_iff.2 (hbad h)⟩

/-- Settles O27, by what `F_PARSE` answers in each case; the payload is the frame's by position. -/
theorem parseReturnsTheFields : Obligations.ParseReturnsTheFields := by
  intro f s
  obtain ⟨hover, hbad, hok⟩ := opParse_spec f
  obtain ⟨hlength, hbyte⟩ := framePayload_spec f
  exact ⟨fun _ _ _ _ => rfl, fun h => answer_eq_error_iff.2 (hover h),
    fun h hf => answer_eq_error_iff.2 (hbad h hf),
    fun h hf => ⟨framePayload f, congrArg s.answer (hok h hf), hlength, hbyte⟩⟩

end Sys2Proof
end

section
/-!
PROOFS. `P_CHECK` (spec/43_protocol.md): the command first, then the length by the direction's rule (R156).
-/
namespace Sys2Proof
open Sys2Proof.Machine

/-- An unknown command, whatever the length and the direction (R156). -/
theorem exec_pCheck_unknown {c : Byte} (hc : c ∉ commandBytes) (pl : Byte) (dir : Direction) (s : State) :
    exec (.pCheck c pl dir) s = .next (s.answered s.grid (errorResponse .unknownCommand)) := by
  have hcheck := (checkCommand_spec c pl.toNat dir).1 hc
  exact answer_eq_error_iff.2 (by rw [opCheck, hcheck]; rfl)

/-- A command of the codeset: the answer turns on the length test, in whatever words `q` it is said. -/
theorem exec_pCheck_known {c pl : Byte} {dir : Direction} {q : Prop} [Decidable q] (hc : c ∈ commandBytes)
    (hq : lengthOk Config.params c pl.toNat dir = true ↔ q) (s : State) :
    exec (.pCheck c pl dir) s = .next (s.answered s.grid
      (if q then okResponse 0 0 0 0 [] else errorResponse .malformedPacket)) := by
  have hcheck := (checkCommand_spec c pl.toNat dir).2 hc
  by_cases h : q
  · rw [if_pos h]
    exact answer_eq_ok_iff.2 (by rw [opCheck, hcheck, if_pos (hq.2 h)]; rfl)
  · rw [if_neg h]
    exact answer_eq_error_iff.2 (by rw [opCheck, hcheck, if_neg (mt hq.1 h)]; rfl)

/-- A request passes with exactly its command's payload length, here the byte `n` (R156). -/
theorem exec_pCheck_request {c n : Byte} (hc : c ∈ commandBytes) (hn : requestLength c = n.toNat) (pl : Byte)
    (s : State) :
    exec (.pCheck c pl .request) s = .next (s.answered s.grid
      (if pl = n then okResponse 0 0 0 0 [] else errorResponse .malformedPacket)) := by
  have hlength : lengthOk Config.params c pl.toNat .request = true ↔ pl = n :=
    (requestLengthOk_iff hc pl.toNat).trans (by rw [hn, BitVec.toNat_inj])
  exact exec_pCheck_known hc hlength s

/-- A response to `READ_CONFIG` passes with exactly 20 bytes (R156). -/
theorem exec_pCheck_response_readConfig (pl : Byte) (s : State) :
    exec (.pCheck 0x02 pl .response) s = .next (s.answered s.grid
      (if pl = 20 then okResponse 0 0 0 0 [] else errorResponse .malformedPacket)) := by
  have hlength : lengthOk Config.params 0x02 pl.toNat .response = true ↔ pl = 20 :=
    (responseLengthOk_params 0x02 pl.toNat).trans
      ((forall_prop_of_true rfl).trans (BitVec.toNat_inj (y := 20)))
  exact exec_pCheck_known (by decide) hlength s

/-- A response to another command of the codeset passes with any length (R156, D15). -/
theorem exec_pCheck_response_ok {c : Byte} (hc : c ∈ commandBytes) (h2 : c ≠ 0x02) (pl : Byte) (s : State) :
    exec (.pCheck c pl .response) s = .next (s.answered s.grid (okResponse 0 0 0 0 [])) := by
  have hlength : lengthOk Config.params c pl.toNat .response = true ↔ True :=
    iff_true_intro ((responseLengthOk_params c pl.toNat).2 fun h => absurd h h2)
  rw [exec_pCheck_known hc hlength, if_pos trivial]

/-! ### The obligation -/

/-- Settles O29, command by command: the four of the codeset by their length rules, then the unknown ones. -/
theorem checkAppliesTheCatalogue : Obligations.CheckAppliesTheCatalogue := by
  intro c pl s
  refine ⟨fun _ _ _ => rfl, ?_⟩
  by_cases hc : c ∈ commandBytes
  · obtain rfl | rfl | rfl | rfl : c = 0x01 ∨ c = 0x02 ∨ c = 0x03 ∨ c = 0x04 := by
      simpa [commandBytes] using hc
    · exact ⟨exec_pCheck_request (n := 0) hc rfl pl s, exec_pCheck_response_ok hc (by decide) pl s⟩
    · exact ⟨exec_pCheck_request (n := 0) hc rfl pl s, exec_pCheck_response_readConfig pl s⟩
    · exact ⟨exec_pCheck_request (n := 20) hc rfl pl s, exec_pCheck_response_ok hc (by decide) pl s⟩
    · exact ⟨exec_pCheck_request (n := 1) hc rfl pl s, exec_pCheck_response_ok hc (by decide) pl s⟩
  · rw [exec_pCheck_unknown hc, exec_pCheck_unknown hc]
    obtain ⟨h1, h2, h3, h4⟩ : c ≠ 0x01 ∧ c ≠ 0x02 ∧ c ≠ 0x03 ∧ c ≠ 0x04 := by
      simpa [commandBytes] using hc
    simp only [h1, h2, h3, h4, if_false, or_false, and_self]

end Sys2Proof
end

section
/-!
PROOFS. The collaborator-facing operations one by one: the grid that `DECODE_TABLE` rebuilds from 20 packed bytes (R172,
R64), the tests of `BUILD_REQUEST` (R173) and of `PARSE_RESPONSE` (R174) in their order.
-/
namespace Sys2Proof
open Sys2Proof.Machine

/-! ### The decoded table -/

/-- The packed sequences that `DECODE_TABLE` accepts: 20 bytes with bit 7 clear (R172). -/
theorem isPacket_table_iff (p : List Byte) : isPacket p 17 ↔ p.length = 20 ∧ ∀ b ∈ p, b.getLsbD 7 = false := Iff.rfl

/-- A cell of the grid decoded from a packet is a bit of its destination's source byte (R22, R172). -/
theorem cell_fromMasks_sourceByte (p : List Byte) (o : Fin 8) (d : Fin 17) :
    (fromMasks ((List.range 17).map (sourceByte p))).cell o d = (sourceByte p d.val).getLsbD o.val := by
  rw [cell_fromMasks, getD_map_range _ d.isLt]

/-- Outputs 0 to 6 are read from the data bytes (R64). -/
theorem cell_fromMasks_sourceByte_data (p : List Byte) (d : Fin 17) {o : Fin 8} (ho : o.val < 7) :
    (fromMasks ((List.range 17).map (sourceByte p))).cell o d =
      (p.getD (8 * (d.val / 7) + 1 + d.val % 7) 0).getLsbD o.val := by
  rw [cell_fromMasks_sourceByte, getLsbD_sourceByte, if_neg (by omega)]
  simp [ho]

/-- Output 7 is read from the carry bytes (R64). -/
theorem cell_fromMasks_sourceByte_carry (p : List Byte) (d : Fin 17) :
    (fromMasks ((List.range 17).map (sourceByte p))).cell 7 d =
      (p.getD (8 * (d.val / 7)) 0).getLsbD (6 - d.val % 7) := by
  rw [cell_fromMasks_sourceByte, getLsbD_sourceByte, if_pos (show (7 : Fin 8).val = 7 from rfl), carrySlot]

/-! ### The obligations -/

/-- Settles O31: 20 bytes with bit 7 clear are exactly the packets for 17 source bytes, and each cell of the rebuilt grid
is a bit of its source byte. -/
theorem decodeTableRebuildsTheGrid : Obligations.DecodeTableRebuildsTheGrid := by
  intro p s
  obtain ⟨hover, hbad, hok⟩ := opDecodeTable_spec p
  refine ⟨fun _ _ _ _ => rfl, fun h => congrArg s.commit (hover h), fun hlen hp => ?_, fun hlen hsafe => ?_⟩
  · have hnot : ¬ isPacket p 17 := by
      rw [isPacket_table_iff]
      rintro ⟨h20, hsafe⟩
      obtain hne | ⟨b, hb, hb7⟩ := hp
      · exact hne h20
      · exact Bool.false_ne_true ((hsafe b hb).symm.trans hb7)
    exact congrArg s.commit (hbad hlen hnot)
  · exact ⟨fromMasks ((List.range 17).map (sourceByte p)),
      congrArg s.commit (hok ((isPacket_table_iff p).2 ⟨hlen, hsafe⟩)),
      fun d _ ho => cell_fromMasks_sourceByte_data p d ho, cell_fromMasks_sourceByte_carry p⟩

/-- Settles O32, by what `BUILD_REQUEST` answers at each of its tests and beyond them. -/
theorem buildRequestChecksThenBuilds : Obligations.BuildRequestChecksThenBuilds := by
  intro c d p s
  obtain ⟨hover, hunknown, hlength, hunsafe, hsafe⟩ := opBuildRequest_spec c d p
  exact ⟨fun _ _ => rfl, fun h => answer_eq_error_iff.2 (hover h),
    fun h hc => answer_eq_error_iff.2 (hunknown h hc),
    fun h hc hl => answer_eq_error_iff.2 (hlength h hc hl),
    fun hc hl hb => answer_eq_error_iff.2 (hunsafe hc hl hb),
    fun hc hl hb => answer_eq_ok_iff.2 (hsafe hc hl hb)⟩

/-- Settles O33, by what `PARSE_RESPONSE` answers in each case; the payload is the frame's by position. -/
theorem parseResponseChecksFrameThenCommand : Obligations.ParseResponseChecksFrameThenCommand := by
  intro f s
  obtain ⟨hover, hbad, hunknown, hok⟩ := opParseResponse_spec f
  obtain ⟨hpayload, hbyte⟩ := framePayload_spec f
  exact ⟨fun _ _ _ _ => rfl, fun h => answer_eq_error_iff.2 (hover h),
    fun h hf => answer_eq_error_iff.2 (hbad h hf),
    fun h hf hc => answer_eq_error_iff.2 (hunknown h hf hc),
    fun h hf hc => ⟨framePayload f, congrArg s.answer (hok h hf hc), hpayload, hbyte⟩⟩

end Sys2Proof
end

section
/-!
PROOFS. The error returns (spec/60_exceptions.md): an error answer carries its code and nothing else (R197), it leaves no
trace in the next transaction (R200), and which requests raise each of the source's four errors (R191 to R194). For the last,
an `op…_eq_error_iff` says of each operation which operands are which error, and a request's selector picks the operation.
-/
namespace Sys2Proof
open Sys2Proof.Machine

/-! ### The error return -/

/-- A result with an error code carries nothing else and leaves the grid as it was, for every instruction (R197). -/
theorem result_error {i : Instr} {g : Grid} {e : Err} (h : (result i g).2.err = .error e) :
    (result i g).2 = errorResponse e ∧ (result i g).1 = g := by
  cases i with
  | tClear | tSet | tSetRow | tFromMasks | decodeTable => exact writeResult_error h
  | _ => exact readResult_error h

@[simp] theorem readResult_err_eq_error_iff (g : Grid) (x : Except Err Reply) (e : Err) :
    (readResult g x).2.err = .error e ↔ x = .error e := by
  cases x <;> simp [readResult]

@[simp] theorem writeResult_err_eq_error_iff (g : Grid) (x : Except Err Grid) (e : Err) :
    (writeResult g x).2.err = .error e ↔ x = .error e := by
  cases x <;> simp [writeResult]

/-! ### The shapes of an operation's tests -/

section Tests
variable {α : Type} {x : Except Err α} {e₀ : Err} {p : Prop}

theorem eq_error_iff_of_eq_error (h : x = .error e₀) (e : Err) : x = .error e ↔ e = e₀ := by
  simp [h, eq_comm]

/-- One test: the operands with `p` are the error `e₀`. -/
theorem eq_error_iff_of_test (hbad : p → x = .error e₀) (hok : ¬ p → ∃ a, x = .ok a) (e : Err) :
    x = .error e ↔ e = e₀ ∧ p := by
  by_cases hp : p
  · simp [eq_error_iff_of_eq_error (hbad hp), hp]
  · obtain ⟨a, ha⟩ := hok hp
    simp [ha, hp]

/-- The capacity of `IN` (R31), and within it one test: the operands without `p` are the error `e₀`. -/
theorem eq_error_iff_of_capacity {len : Nat} (hover : 27 ≤ len → x = .error .contractViolation)
    (hbad : len ≤ 26 → ¬ p → x = .error e₀) (hok : len ≤ 26 → p → ∃ a, x = .ok a) (e : Err) :
    x = .error e ↔ e = .contractViolation ∧ 27 ≤ len ∨ e = e₀ ∧ len ≤ 26 ∧ ¬ p := by
  by_cases hlen : len ≤ 26
  · have hle : ¬ 27 ≤ len := by omega
    simp [eq_error_iff_of_test (hbad hlen) (fun hp => hok hlen (not_not.1 hp)), hlen, hle]
  · have hle : 27 ≤ len := by omega
    simp [eq_error_iff_of_eq_error (hover hle), hlen, hle]

end Tests

/-! ### Which operands are which error, operation by operation -/

@[simp] theorem opEncode_eq_error_iff (src : List Byte) (e : Err) :
    opEncode Config.params src = .error e ↔ e = .contractViolation ∧ 23 ≤ src.length := by
  rw [opEncode_spec]
  exact eq_error_iff_of_test (fun h => if_neg (by omega)) (fun h => ⟨_, if_pos (by omega)⟩) e

@[simp] theorem opDecode_eq_error_iff (n : Byte) (p : List Byte) (e : Err) :
    opDecode Config.params n p = .error e ↔ e = .contractViolation ∧ 27 ≤ p.length ∨
      e = .malformedPacket ∧ p.length ≤ 26 ∧ ¬ isPacket p n.toNat := by
  obtain ⟨hover, hbad, hok⟩ := opDecode_spec n p
  exact eq_error_iff_of_capacity hover hbad (fun hlen hp => ⟨_, hok hlen hp⟩) e

@[simp] theorem opSet_eq_error_iff (o d : Byte) (v : Bool) (g : Grid) (e : Err) :
    opSet o d v g = .error e ↔ e = .invalidIndex ∧ (8 ≤ o.toNat ∨ 17 ≤ d.toNat) := by
  obtain ⟨hok, hbad⟩ := opSet_spec o d v g
  exact eq_error_iff_of_test hbad (fun h => ⟨_, hok (by omega) (by omega)⟩) e

@[simp] theorem opSetRow_eq_error_iff (o : Byte) (v : Bool) (g : Grid) (e : Err) :
    opSetRow o v g = .error e ↔ e = .invalidIndex ∧ 8 ≤ o.toNat := by
  obtain ⟨hok, hbad⟩ := opSetRow_spec o v g
  exact eq_error_iff_of_test hbad (fun h => ⟨_, hok (by omega)⟩) e

@[simp] theorem opMask_eq_error_iff (d : Byte) (g : Grid) (e : Err) :
    opMask d g = .error e ↔ e = .invalidIndex ∧ 17 ≤ d.toNat := by
  obtain ⟨hok, hbad⟩ := opMask_spec d g
  exact eq_error_iff_of_test hbad (fun h => ⟨_, hok (by omega)⟩) e

@[simp] theorem opFromMasks_eq_error_iff (m : List Byte) (e : Err) :
    opFromMasks m = .error e ↔ e = .contractViolation ∧ m.length ≠ 17 := by
  obtain ⟨hok, hbad⟩ := opFromMasks_spec m
  exact eq_error_iff_of_test hbad (fun h => ⟨_, hok (not_not.1 h)⟩) e

@[simp] theorem opBuild_eq_error_iff (m : Message) (e : Err) :
    opBuild Config.params m = .error e ↔
      e = .contractViolation ∧ (21 ≤ m.payload.length ∨ ∃ b ∈ m.payload, b.getLsbD 7 = true) := by
  obtain ⟨hok, hbad⟩ := opBuild_spec m
  refine eq_error_iff_of_test hbad (fun h => ?_) e
  obtain ⟨hlen, hsafe⟩ := not_or.1 h
  exact ⟨_, hok (by omega) (by simpa using hsafe)⟩

@[simp] theorem opParse_eq_error_iff (f : List Byte) (e : Err) :
    opParse Config.params f = .error e ↔
      e = .contractViolation ∧ 27 ≤ f.length ∨ e = .frameError ∧ f.length ≤ 26 ∧ ¬ isFrame f := by
  obtain ⟨hover, hbad, hok⟩ := opParse_spec f
  exact eq_error_iff_of_capacity hover hbad (fun hlen hf => ⟨_, hok hlen hf⟩) e

@[simp] theorem opCheck_eq_error_iff (c pl : Byte) (dir : Direction) (e : Err) :
    opCheck Config.params c pl dir = .error e ↔ e = .unknownCommand ∧ c ∉ commandBytes ∨
      e = .malformedPacket ∧ c ∈ commandBytes ∧ ¬ lengthOk Config.params c pl.toNat dir = true := by
  obtain ⟨hunknown, hknown⟩ := checkCommand_spec c pl.toNat dir
  by_cases hc : c ∈ commandBytes
  · have hbad : ¬ lengthOk Config.params c pl.toNat dir = true →
        opCheck Config.params c pl dir = .error .malformedPacket :=
      fun hl => by rw [opCheck, hknown hc, if_neg hl]; rfl
    have hok : ¬ ¬ lengthOk Config.params c pl.toNat dir = true → opCheck Config.params c pl dir = .ok {} :=
      fun hl => by rw [opCheck, hknown hc, if_pos (not_not.1 hl)]; rfl
    simpa [hc] using eq_error_iff_of_test hbad (fun hl => ⟨_, hok hl⟩) e
  · have hbad : opCheck Config.params c pl dir = .error .unknownCommand := by
      rw [opCheck, hunknown hc]; rfl
    simp [eq_error_iff_of_eq_error hbad, hc]

@[simp] theorem opDecodeTable_eq_error_iff (p : List Byte) (e : Err) :
    opDecodeTable Config.params p = .error e ↔ e = .contractViolation ∧ 27 ≤ p.length ∨
      e = .malformedPacket ∧ p.length ≤ 26 ∧ ¬ isPacket p 17 := by
  obtain ⟨hover, hbad, hok⟩ := opDecodeTable_spec p
  exact eq_error_iff_of_capacity hover hbad (fun _ hp => ⟨_, hok hp⟩) e

@[simp] theorem opBuildRequest_eq_error_iff (c d : Byte) (p : List Byte) (e : Err) :
    opBuildRequest Config.params c d p = .error e ↔
      e = .contractViolation ∧ (27 ≤ p.length ∨
        c ∈ commandBytes ∧ p.length = requestLength c ∧ ∃ b ∈ p, b.getLsbD 7 = true) ∨
      e = .unknownCommand ∧ p.length ≤ 26 ∧ c ∉ commandBytes ∨
      e = .malformedPacket ∧ p.length ≤ 26 ∧ c ∈ commandBytes ∧ p.length ≠ requestLength c := by
  obtain ⟨hover, hunknown, hlength, hunsafe, hsafe⟩ := opBuildRequest_spec c d p
  by_cases hlen : p.length ≤ 26
  · have hle : ¬ 27 ≤ p.length := by omega
    by_cases hc : c ∈ commandBytes
    · by_cases hl : p.length = requestLength c
      · have hsent : ¬ (∃ b ∈ p, b.getLsbD 7 = true) → ∃ r, opBuildRequest Config.params c d p = .ok r :=
          fun hb => ⟨_, hsafe hc hl (by simpa using hb)⟩
        simpa [hl ▸ hle, hc, hl] using eq_error_iff_of_test (hunsafe hc hl) hsent e
      · simp [eq_error_iff_of_eq_error (hlength hlen hc hl), hle, hlen, hc, hl]
    · simp [eq_error_iff_of_eq_error (hunknown hlen hc), hle, hlen, hc]
  · have hle : 27 ≤ p.length := by omega
    simp [eq_error_iff_of_eq_error (hover hle), hle, hlen]

@[simp] theorem opParseResponse_eq_error_iff (f : List Byte) (e : Err) :
    opParseResponse Config.params f = .error e ↔ e = .contractViolation ∧ 27 ≤ f.length ∨
      e = .frameError ∧ f.length ≤ 26 ∧ ¬ isFrame f ∨
      e = .unknownCommand ∧ f.length ≤ 26 ∧ isFrame f ∧ f.getD 4 0 ∉ commandBytes := by
  obtain ⟨-, -, hunknown, hok⟩ := opParseResponse_spec f
  by_cases h : f.length ≤ 26 ∧ isFrame f
  · obtain ⟨hlen, hf⟩ := h
    have hle : ¬ 27 ≤ f.length := by omega
    simpa only [hlen, hf, hle, true_and, not_true, and_false, false_or] using
      eq_error_iff_of_test (hunknown hlen hf) (fun hc => ⟨_, hok hlen hf (not_not.1 hc)⟩) e
  · have hsame : opParseResponse Config.params f = opParse Config.params f :=
      opParseResponse_eq_opParse <| by
        by_cases hf : isFrame f
        · exact .inr (.inr (by have := mt (And.intro · hf) h; omega))
        · exact .inl hf
    rw [hsame, opParse_eq_error_iff]
    tauto

/-! ### The length test of `P_CHECK` by its operands -/

/-- The payload lengths that break the rule of a command of the codeset, in the direction that `C[0]` names (R156). -/
theorem mem_and_not_lengthOk_iff (a b c : Byte) :
    a ∈ commandBytes ∧ ¬ lengthOk Config.params a b.toNat (directionOf c) = true ↔
      c.getLsbD 0 = false ∧ a ∈ commandBytes ∧ b.toNat ≠ requestLength a ∨
      c.getLsbD 0 = true ∧ a = 0x02 ∧ b ≠ 20 := by
  cases hc : c.getLsbD 0 with
  | false =>
    have hdir : directionOf c = .request := by rw [directionOf, bit0, hc]; rfl
    have hlength : a ∈ commandBytes → (lengthOk Config.params a b.toNat .request = true ↔
        b.toNat = requestLength a) := fun ha => requestLengthOk_iff ha b.toNat
    simp only [hdir, Bool.false_eq_true, true_and, false_and, or_false, and_congr_right_iff]
    exact fun ha => not_congr (hlength ha)
  | true =>
    have hdir : directionOf c = .response := by rw [directionOf, bit0, hc]; rfl
    have h20 : b.toNat = 20 ↔ b = 20 := BitVec.toNat_inj (y := 20)
    have hmem : a = 0x02 → a ∈ commandBytes := by rintro rfl; decide
    rw [hdir, lengthOk, responseLengthOk_params, h20]
    simp only [Bool.true_eq_false, false_and, true_and, false_or, Classical.not_imp]
    exact ⟨And.right, fun h => ⟨hmem h.1, h⟩⟩

/-! ### The selector picks the operation -/

/-- The 16 selectors of R75, by the names of their operations. -/
theorem opsel_cases {motive : BitVec 4 → Prop} (reserved0 : motive 0x0) (encode : motive 0x1)
    (decode : motive 0x2) (tClear : motive 0x3) (tSet : motive 0x4) (tSetRow : motive 0x5)
    (tMask : motive 0x6) (tToMasks : motive 0x7) (tFromMasks : motive 0x8) (fBuild : motive 0x9)
    (fParse : motive 0xA) (pCheck : motive 0xB) (encodeTable : motive 0xC) (decodeTable : motive 0xD)
    (buildRequest : motive 0xE) (parseResponse : motive 0xF) (opsel : BitVec 4) : motive opsel := by
  obtain ⟨⟨k, hk⟩⟩ := opsel
  interval_cases k <;> assumption

/-! ### The obligations -/

/-- Settles O45, by what an instruction's result with an error code is. -/
theorem errorReturnLeavesNothing : Obligations.ErrorReturnLeavesNothing :=
  fun i s => ⟨_, _, exec_eq i s, fun _ => result_error⟩

/-- Settles O47: an error answer keeps the grid, and a transaction is `result` of its instruction and the grid. -/
theorem failedTransactionsLeaveNoTrace : Obligations.FailedTransactionsLeaveNoTrace :=
  fun _ j s e _ => ⟨_, _, exec_eq j s, exec_eq j (s.answered s.grid (errorResponse e))⟩

/-- Settles O40: `T_SET`, `T_SET_ROW` and `T_MASK` test an index, no other selector's operation does. -/
theorem invalidIndexIsRaisedExactlyByTheIndexedOperations :
    Obligations.InvalidIndexIsRaisedExactlyByTheIndexedOperations := by
  rintro ⟨op, a, b, c, d, inp⟩ s
  refine ⟨_, _, exec_eq _ s, fun h => (result_error h).2, ?_⟩
  cases op using opsel_cases with
  | tSet => simp [Request.instr, result, opSet_eq_error_iff a b]
  | tSetRow => simp [Request.instr, result, opSetRow_eq_error_iff a]
  | tMask => simp [Request.instr, result, opMask_eq_error_iff b]
  | _ => simp [Request.instr, result]

/-- Settles O41: the packed sequence of `DECODE` and `DECODE_TABLE`, the length rules of `P_CHECK` and `BUILD_REQUEST`. -/
theorem malformedPacketIsRaisedExactlyForBadPackets :
    Obligations.MalformedPacketIsRaisedExactlyForBadPackets := by
  rintro ⟨op, a, b, c, d, inp⟩ s
  refine ⟨_, _, exec_eq _ s, ?_⟩
  cases op using opsel_cases with
  | decode => simp [Request.instr, result, opDecode_eq_error_iff a inp]
  | decodeTable => simp [Request.instr, result, opDecodeTable_eq_error_iff inp]
  | pCheck => simpa [Request.instr, result] using mem_and_not_lengthOk_iff a b c
  | buildRequest => simp [Request.instr, result, opBuildRequest_eq_error_iff a b inp]
  | _ => simp [Request.instr, result]

/-- Settles O42: `F_PARSE` and `PARSE_RESPONSE` test a frame, no other selector's operation does. -/
theorem frameErrorIsRaisedExactlyForBadFrames : Obligations.FrameErrorIsRaisedExactlyForBadFrames := by
  rintro ⟨op, a, b, c, d, inp⟩ s
  refine ⟨_, _, exec_eq _ s, ?_⟩
  cases op using opsel_cases with
  | fParse => simp [Request.instr, result, opParse_eq_error_iff inp]
  | parseResponse => simp [Request.instr, result, opParseResponse_eq_error_iff inp]
  | _ => simp [Request.instr, result]

/-- Settles O43: `P_CHECK`, `BUILD_REQUEST` and `PARSE_RESPONSE` test a command byte, no other selector's operation does. -/
theorem unknownCommandIsRaisedExactlyByTheCatalogue :
    Obligations.UnknownCommandIsRaisedExactlyByTheCatalogue := by
  rintro ⟨op, a, b, c, d, inp⟩ s
  refine ⟨_, _, exec_eq _ s, ?_⟩
  cases op using opsel_cases with
  | pCheck => simp [Request.instr, result, opCheck_eq_error_iff a b]
  | buildRequest => simp [Request.instr, result, opBuildRequest_eq_error_iff a b inp]
  | parseResponse => simp [Request.instr, result, opParseResponse_eq_error_iff inp]
  | _ => simp [Request.instr, result]

end Sys2Proof
end

section
/-!
PROOFS. Reset (R220): what the empty grid shows through the mask view and through `ENCODE_TABLE`.
-/
namespace Sys2Proof
open Sys2Proof.Machine

/-! ### Zero bytes in packed form -/

/-- A packed byte reads its source as zeros beyond the end, so a source of zeros packs like the empty one. -/
theorem packedByte_replicate_zero (n j : Nat) : packedByte (List.replicate n 0) j = 0 := by
  have hzero (i : Nat) : (List.replicate n (0 : Byte)).getD i 0 = ([] : List Byte).getD i 0 := by
    rw [List.getD_eq_getElem?_getD, List.getElem?_getD_replicate_default_eq, List.getD_nil]
  have hnil : packedByte (List.replicate n 0) j = packedByte [] j := by
    simp only [packedByte, carryByte, hzero]
  rw [hnil, packedByte_nil]

theorem encodeBytes_replicate_zero (n : Nat) :
    encodeBytes (List.replicate n 0) = List.replicate (plen n) 0 := by
  refine List.eq_replicate_iff.2 ⟨by simp, fun b hb => ?_⟩
  obtain ⟨j, -, rfl⟩ := List.mem_map.1 hb
  exact packedByte_replicate_zero n j

/-! ### The empty grid -/

/-- Every mask of the empty grid is 0 (R220): its bits are the cells (R22). -/
theorem channelMask_empty (d : Fin 17) : channelMask Grid.empty d = 0 := by
  apply BitVec.eq_of_getLsbD_eq
  intro o ho
  rw [getLsbD_channelMask Grid.empty d ⟨o, ho⟩, cell_empty]
  exact BitVec.getLsbD_zero.symm

theorem toMasks_empty : toMasks Grid.empty = List.replicate 17 0 := by
  rw [toMasks, funext channelMask_empty, List.map_const', List.length_finRange]

theorem encodeBytes_toMasks_empty : encodeBytes (toMasks Grid.empty) = List.replicate 20 0 := by
  rw [toMasks_empty]
  exact encodeBytes_replicate_zero 17

/-! ### The states after reset -/

/-- The step that takes the reset input leaves the grid empty (R222). -/
theorem step_reset_grid {s t : State} {rest : List HostEvent} (hin : s.inputs = .reset :: rest)
    (hstep : step s = .next t) : t.grid = Grid.empty := by
  simp only [step, hin] at hstep
  rw [← next_inj.1 hstep, assertReset_grid]

/-! ### The obligation -/

/-- Settles O51: both ways to a reset leave the grid empty, and the empty grid's cells, masks and packed table are zero. -/
theorem resetEmptiesTheGrid : Obligations.ResetEmptiesTheGrid := by
  intro t ht
  have hg : t.grid = Grid.empty := by
    obtain rfl | ⟨s, rest, hin, hstep⟩ := ht
    · rfl
    · exact step_reset_grid hin hstep
  refine ⟨fun o d => ?_, fun d => ?_, ?_⟩
  · rw [hg, cell_empty]
  · rw [hg, channelMask_empty]
  · rw [← encodeBytes_toMasks_empty, ← hg]
    exact exec_eq .encodeTable t

end Sys2Proof
end

section
/-!
PROOFS. Presenting, decoding, stepping: the byte form reads back (R30, R60, R63), the operands an operation does not
read make no difference (R76, R77), and a frame or a packet handed over is answered as the transaction that takes it
(R201).
-/
namespace Sys2Proof
open Sys2Proof.Machine

/-! ### The byte form of an instruction -/

/-- What the encoder presents for a well-formed instruction is that instruction, row by row. -/
theorem presentRoundTrip : ∀ i : Instr, Laws.PresentRoundTrip.Statement i
  | .reserved0 => Laws.PresentRoundTrip.reserved0
  | .encode src => Laws.PresentRoundTrip.encode src
  | .decode n p => Laws.PresentRoundTrip.decode n p
  | .tClear => Laws.PresentRoundTrip.tClear
  | .tSet o d v => Laws.PresentRoundTrip.tSet o d v
  | .tSetRow o v => Laws.PresentRoundTrip.tSetRow o v
  | .tMask d => Laws.PresentRoundTrip.tMask d
  | .tToMasks => Laws.PresentRoundTrip.tToMasks
  | .tFromMasks m => Laws.PresentRoundTrip.tFromMasks m
  | .fBuild m o d c p => Laws.PresentRoundTrip.fBuild m o d c p
  | .fParse f => Laws.PresentRoundTrip.fParse f
  | .pCheck c len dir => Laws.PresentRoundTrip.pCheck c len dir
  | .encodeTable => Laws.PresentRoundTrip.encodeTable
  | .decodeTable p => Laws.PresentRoundTrip.decodeTable p
  | .buildRequest c d p => Laws.PresentRoundTrip.buildRequest c d p
  | .parseResponse f => Laws.PresentRoundTrip.parseResponse f
  | .pingRequest m o d => Laws.PresentRoundTrip.pingRequest m o d
  | .readConfigRequest m o d => Laws.PresentRoundTrip.readConfigRequest m o d
  | .readConfigResponse m o d p => Laws.PresentRoundTrip.readConfigResponse m o d p
  | .writeConfigRequest m o d p => Laws.PresentRoundTrip.writeConfigRequest m o d p
  | .changeDeviceIdRequest m o d x => Laws.PresentRoundTrip.changeDeviceIdRequest m o d x
  | .frameGeneric m o d c p => Laws.PresentRoundTrip.frameGeneric m o d c p
  | .packedCarryByte n before x after => Laws.PresentRoundTrip.packedCarryByte n before x after
  | .packedDataByte n before x after => Laws.PresentRoundTrip.packedDataByte n before x after

/-- Bytes that are a presented transaction decode to its instruction. -/
theorem decode_of_ofBytes {f : Format} {bytes : List Byte} {p : Presented}
    (h : Presented.ofBytes f bytes = .ok p) : decode f bytes = .ok p.instr := by
  rw [decode, h]; rfl

/-! ### The step that takes a presented transaction -/

theorem step_present (s : State) (p : Presented) (rest : List HostEvent) :
    step { s with inputs := .present p :: rest } = exec p.instr (s.setInputs rest) := rfl

/-- Presented transactions whose instructions have one result give the same step. -/
theorem step_present_congr {p q : Presented} (h : ∀ g, result p.instr g = result q.instr g) (s : State)
    (rest : List HostEvent) :
    step { s with inputs := .present p :: rest } = step { s with inputs := .present q :: rest } := by
  rw [step_present, step_present, exec_eq, exec_eq, h]

/-- The operands an operation reads (R76), of `enabled` and the direction only bit 0 (R77), fix the instruction. -/
theorem instr_eq_of_read_operands {r r' : Request} (hop : r.opsel = r'.opsel)
    (ha : r.opsel.toNat ∈ [0x2, 0x4, 0x5, 0x9, 0xB, 0xE] → r.a = r'.a)
    (hb : r.opsel.toNat ∈ [0x4, 0x6, 0x9, 0xB, 0xE] → r.b = r'.b)
    (hc : r.opsel.toNat ∈ [0x4, 0x5, 0xB] → r.c.getLsbD 0 = r'.c.getLsbD 0)
    (hcd : r.opsel.toNat = 0x9 → r.c = r'.c ∧ r.d = r'.d)
    (hin : r.opsel.toNat ∈ [0x1, 0x2, 0x8, 0x9, 0xA, 0xD, 0xE, 0xF] → r.inp = r'.inp) :
    r.instr = r'.instr := by
  obtain ⟨op, a, b, c, d, inp⟩ := r
  obtain ⟨op', a', b', c', d', inp'⟩ := r'
  dsimp only at hop ha hb hc hcd hin
  subst hop
  cases op using opsel_cases with
  | reserved0 | tClear | tToMasks | encodeTable => rfl
  | encode | tFromMasks | fParse | decodeTable | parseResponse => rw [hin (by decide)]; rfl
  | decode => rw [ha (by decide), hin (by decide)]; rfl
  | tSet =>
    rw [ha (by decide), hb (by decide)]
    exact congrArg (Instr.tSet a' b') (hc (by decide))
  | tSetRow =>
    rw [ha (by decide)]
    exact congrArg (Instr.tSetRow a') (hc (by decide))
  | tMask => rw [hb (by decide)]; rfl
  | fBuild =>
    obtain ⟨rfl, rfl⟩ := hcd rfl
    rw [ha (by decide), hb (by decide), hin (by decide)]
  | pCheck =>
    rw [ha (by decide), hb (by decide)]
    exact congrArg (fun v => Instr.pCheck a' b' (if v then .response else .request)) (hc (by decide))
  | buildRequest => rw [ha (by decide), hb (by decide), hin (by decide)]; rfl

/-! ### Frames handed over -/

theorem map_septetByte_map_lowSeptet {l : List Byte} (h : sevenBitSafe l = true) :
    (l.map lowSeptet).map septetByte = l := by
  have hid : ∀ b ∈ l, (septetByte ∘ lowSeptet) b = id b :=
    fun b hb => septetByte_lowSeptet ((sevenBitSafe_iff l).1 h b hb)
  rw [List.map_map, List.map_congr_left hid, List.map_id]

/-- A sequence that splits into fields is the frame built of them (R60). -/
theorem eq_buildFrame_of_splitFrame {bytes : List Byte} {m o d c : Byte} {p : List Septet}
    (h : splitFrame bytes = some (m, o, d, c, p)) : bytes = buildFrame ⟨m, o, d, c, p.map septetByte⟩ := by
  unfold splitFrame at h
  split at h
  · split at h
    · next hframe =>
      obtain ⟨rfl, hlast, hsafe⟩ := hframe
      cases h
      rw [map_septetByte_map_lowSeptet hsafe]
      simpa [buildFrame] using (List.dropLast_append_getLast? _ hlast).symm
    · cases h
  · cases h

/-- Whatever row a frame's fields name, it is answered as `F_PARSE` of the frame: the rows of the protocol are those of
the four commands, on which `PARSE_RESPONSE` is `F_PARSE` (R79). -/
theorem result_frameRow (m o d c : Byte) (p : List Septet) (g : Grid) :
    result (frameRow m o d c p) g =
      readResult g (opParse Config.params (buildFrame ⟨m, o, d, c, p.map septetByte⟩)) := by
  have hparse : c ∈ commandBytes → opParseResponse Config.params (buildFrame ⟨m, o, d, c, p.map septetByte⟩) =
      opParse Config.params (buildFrame ⟨m, o, d, c, p.map septetByte⟩) :=
    fun hc => opParseResponse_eq_opParse (.inr (.inl hc))
  unfold frameRow
  split
  · next h =>
    obtain ⟨rfl, hp⟩ := h
    rw [List.length_eq_zero_iff.1 hp] at hparse ⊢
    exact congrArg (readResult g) (hparse (by decide))
  split
  · next h =>
    obtain ⟨rfl, hp⟩ := h
    rw [List.length_eq_zero_iff.1 hp] at hparse ⊢
    exact congrArg (readResult g) (hparse (by decide))
  split
  · next h =>
    obtain ⟨rfl, -⟩ := h
    exact congrArg (readResult g) (hparse (by decide))
  split
  · next h =>
    obtain ⟨rfl, -⟩ := h
    exact congrArg (readResult g) (hparse (by decide))
  split
  · next h =>
    subst h
    split
    · exact congrArg (readResult g) (hparse (by decide))
    · rfl
  · rfl

theorem result_frameInstr (bytes : List Byte) (g : Grid) :
    result (frameInstr bytes) g = result (.fParse bytes) g := by
  unfold frameInstr
  split
  · next h => rw [eq_buildFrame_of_splitFrame h]; exact result_frameRow _ _ _ _ _ g
  · rfl

/-! ### Packets handed over -/

/-- A packet is its bytes before an index, the byte there and its bytes after it. -/
theorem take_append_septetByte_drop {packet : List Byte} {idx : Nat} {b : Byte} (h : packet[idx]? = some b)
    (h7 : bit7 b = false) :
    packet.take idx ++ septetByte (lowSeptet b) :: packet.drop (idx + 1) = packet := by
  obtain ⟨hi, rfl⟩ := List.getElem?_eq_some_iff.1 h
  rw [septetByte_lowSeptet h7, List.getElem_cons_drop hi, List.take_append_drop]

/-- Whatever byte is singled out, a packet is answered as `DECODE` of it (R63, R95). -/
theorem result_packedInstr (n : Byte) (packet : List Byte) (idx : Nat) (g : Grid) :
    result (packedInstr n packet idx) g = result (.decode n packet) g := by
  unfold packedInstr
  split
  · rfl
  · next b hb =>
    split
    · rfl
    · next h7 =>
      have hpacket := take_append_septetByte_drop hb (Bool.eq_false_of_not_eq_true h7)
      split
      · exact congrArg (fun p => readResult g (opDecode Config.params n p)) hpacket
      · exact congrArg (fun p => readResult g (opDecode Config.params n p)) hpacket

/-! ### The obligations -/

/-- Settles O3: the encoder presents the instruction, and the byte form of what it presents reads back. -/
theorem decodeOfEncodeIsTheInstruction : Obligations.DecodeOfEncodeIsTheInstruction := by
  intro i hwf
  obtain ⟨hfits, hinstr⟩ := presentRoundTrip i hwf
  exact (decode_of_ofBytes (ofBytes_toBytes i.present hfits)).trans (congrArg Except.ok hinstr)

/-- Settles O1: the instruction the bytes decode to is the presented transaction's. -/
theorem stepRunsTheDecodedInstruction : Obligations.StepRunsTheDecodedInstruction := by
  intro f bytes p i hp hi s rest hin
  obtain rfl : p.instr = i := Except.ok.inj ((decode_of_ofBytes hp).symm.trans hi)
  simp only [step, hin]
  rfl

/-- Settles O6: three requests, two frames and two table words, read by the decoder. -/
theorem writtenOutWordsDecode : Obligations.WrittenOutWordsDecode :=
  ⟨rfl, rfl, rfl, rfl, rfl, rfl, rfl⟩

/-- Settles O2, by everything a step can do. -/
theorem everyStepHasANextState : Obligations.EveryStepHasANextState := by
  refine ⟨fun s => ?_, fun s hin => ?_⟩
  · obtain ⟨-, h⟩ | ⟨_, -, h⟩ | ⟨_, _, -, h⟩ := step_cases s
    · exact ⟨_, h⟩
    · exact ⟨_, h⟩
    · exact ⟨_, h⟩
  · simp only [step, hin]

/-- Settles O7: the two requests are one instruction. -/
theorem unreadOperandsAreIgnored : Obligations.UnreadOperandsAreIgnored :=
  fun r r' s rest hop ha hb hc hcd hin =>
    step_present_congr (p := .request r) (q := .request r')
      (fun g => congrArg (result · g) (instr_eq_of_read_operands hop ha hb hc hcd hin)) s rest

/-- Settles O8: a frame's row and bytes that are no frame have the result of `F_PARSE`. -/
theorem frameHandedOverIsParsed : Obligations.FrameHandedOverIsParsed :=
  fun bytes s rest a b c d =>
    step_present_congr (p := .frame bytes) (q := .request ⟨0xA, a, b, c, d, bytes⟩)
      (result_frameInstr bytes) s rest

/-- Settles O9: a carry byte, a data byte and a byte that is neither have the result of `DECODE`. -/
theorem packetHandedOverIsDecoded : Obligations.PacketHandedOverIsDecoded :=
  fun n packet idx s rest b c d =>
    step_present_congr (p := .packed n packet idx) (q := .request ⟨0x2, n, b, c, d, packet⟩)
      (result_packedInstr n packet idx) s rest

end Sys2Proof
end

section
/-!
PROOFS. The operations where they succeed, for every value of the parameters: which operands are answered and with what,
the capacity that bounds every buffer (R31), the frame that a request is built into and read back from (R137, R175), and
its legality on the wire (R227).
-/
namespace Sys2Proof
open Sys2Proof.Machine

/-! ### Which operands are answered, and with what -/

section OkAnswers
variable {P : Params} {r : Reply}

theorem overCapacity_eq_true_iff {len : Nat} : overCapacity P len = true ↔ P.cap < len := by
  simp [overCapacity]

theorem opEncode_eq_ite (src : List Byte) : opEncode P src =
    if P.cap < plen src.length then .error .contractViolation else .ok { out := encodeBytes src } := by
  simp only [opEncode, overCapacity_eq_true_iff]
  split
  · next h => rw [if_pos (by unfold plen; omega)]
  · rfl

theorem opEncode_eq_ok_iff {src : List Byte} : opEncode P src = .ok r ↔
    plen src.length ≤ P.cap ∧ r = { out := encodeBytes src } := by
  rw [opEncode_eq_ite]
  split
  · next h => simp [Nat.not_le.2 h]
  · next h => simp [Nat.not_lt.1 h, eq_comm]

theorem opDecode_eq_ok_iff {n : Byte} {p : List Byte} : opDecode P n p = .ok r ↔
    p.length ≤ P.cap ∧ ∃ out, decodeBytes P p n.toNat = .ok out ∧ r = { out := out } := by
  simp only [opDecode, overCapacity_eq_true_iff]
  split
  · next h => simp [Nat.not_le.2 h]
  · next h => cases decodeBytes P p n.toNat <;> simp [Except.map, Nat.not_lt.1 h, eq_comm]

theorem opBuild_eq_ok_iff {m : Message} : opBuild P m = .ok r ↔
    m.payload.length + 6 ≤ P.cap ∧ sevenBitSafe m.payload = true ∧ r = { out := buildFrame m } := by
  simp only [opBuild, overCapacity_eq_true_iff]
  split
  · next h => simp [show ¬ m.payload.length + 6 ≤ P.cap by omega]
  split
  · next h => simp [Nat.not_le.2 h]
  · next h =>
    by_cases hsafe : sevenBitSafe m.payload = true
    · simp [hsafe, Nat.not_lt.1 h, eq_comm (a := r)]
    · simp [hsafe]

theorem parseWithin_eq_ok_iff {f : List Byte} {m : Message} : parseWithin P f = .ok m ↔
    f.length ≤ P.cap ∧ f = buildFrame m ∧ sevenBitSafe m.payload = true := by
  simp only [parseWithin, overCapacity_eq_true_iff, ← parseFrame_eq_some_iff]
  split
  · next h => simp [Nat.not_le.2 h]
  · next h => cases parseFrame f <;> simp [Nat.not_lt.1 h]

theorem opParse_eq_ok_iff {f : List Byte} : opParse P f = .ok r ↔
    f.length ≤ P.cap ∧ ∃ m, f = buildFrame m ∧ sevenBitSafe m.payload = true ∧ r = m.reply := by
  have hmap : opParse P f = .ok r ↔ ∃ m, parseWithin P f = .ok m ∧ r = m.reply := by
    unfold opParse
    cases parseWithin P f <;> simp [Except.map, eq_comm]
  simp only [hmap, parseWithin_eq_ok_iff, and_assoc, exists_and_left]

theorem opParseResponse_eq_ok_iff {f : List Byte} : opParseResponse P f = .ok r ↔
    f.length ≤ P.cap ∧ ∃ m, f = buildFrame m ∧ sevenBitSafe m.payload = true ∧ m.command ∈ commandBytes ∧
      r = m.reply := by
  have htest : opParseResponse P f = .ok r ↔
      ∃ m, parseWithin P f = .ok m ∧ m.command ∈ commandBytes ∧ r = m.reply := by
    unfold opParseResponse
    cases parseWithin P f with
    | error e => simp
    | ok m =>
      by_cases hc : m.command ∈ commandBytes
      · simp [(isCommand_iff _).2 hc, hc, eq_comm]
      · simp [mt (isCommand_iff _).1 hc, hc]
  simp only [htest, parseWithin_eq_ok_iff, and_assoc, exists_and_left]

theorem checkCommand_request_eq_ok_iff {c : Byte} {len : Nat} :
    checkCommand P c len .request = .ok () ↔ c ∈ commandBytes ∧ len = requestLength c := by
  by_cases hc : c ∈ commandBytes
  · have hlength : lengthOk P c len .request = true ↔ len = requestLength c := requestLengthOk_iff hc len
    simp [checkCommand, (isCommand_iff c).2 hc, hc, ← hlength]
  · simp [checkCommand, mt (isCommand_iff c).1 hc, hc]

theorem opBuildRequest_eq_ok_iff {c d : Byte} {p : List Byte} : opBuildRequest P c d p = .ok r ↔
    p.length ≤ P.cap ∧ c ∈ commandBytes ∧ p.length = requestLength c ∧ sevenBitSafe p = true ∧
      r = { out := buildFrame ⟨P.mfgId, P.modelId, d, c, p⟩ } := by
  simp only [opBuildRequest, overCapacity_eq_true_iff]
  split
  · next h => simp [Nat.not_le.2 h]
  split
  · next e hcheck =>
    have hbad : ¬ (c ∈ commandBytes ∧ p.length = requestLength c) :=
      fun h => by cases hcheck.symm.trans (checkCommand_request_eq_ok_iff.2 h)
    simp; tauto
  · next hlen _ hcheck =>
    obtain ⟨hc, hl⟩ := checkCommand_request_eq_ok_iff.1 hcheck
    by_cases hsafe : sevenBitSafe p = true
    · simp [hsafe, hc, ← hl, Nat.not_lt.1 hlen, eq_comm (a := r)]
    · simp [hsafe]

/-! ### What is over the capacity (R31) -/

theorem opDecode_of_cap_lt (n : Byte) {p : List Byte} (h : P.cap < p.length) :
    opDecode P n p = .error .contractViolation := if_pos (overCapacity_eq_true_iff.2 h)

theorem opBuild_of_cap_lt {m : Message} (h : P.cap < m.payload.length + 6) :
    opBuild P m = .error .contractViolation := by
  simp only [opBuild, overCapacity_eq_true_iff, if_pos h, ite_self]

theorem parseWithin_of_cap_lt {f : List Byte} (h : P.cap < f.length) :
    parseWithin P f = .error .contractViolation := if_pos (overCapacity_eq_true_iff.2 h)

theorem opParse_of_cap_lt {f : List Byte} (h : P.cap < f.length) : opParse P f = .error .contractViolation := by
  rw [opParse, parseWithin_of_cap_lt h]; rfl

theorem opParseResponse_of_cap_lt {f : List Byte} (h : P.cap < f.length) :
    opParseResponse P f = .error .contractViolation := by
  rw [opParseResponse, parseWithin_of_cap_lt h]

theorem opDecodeTable_of_cap_lt {p : List Byte} (h : P.cap < p.length) :
    opDecodeTable P p = .error .contractViolation := if_pos (overCapacity_eq_true_iff.2 h)

theorem opBuildRequest_of_cap_lt (c d : Byte) {p : List Byte} (h : P.cap < p.length) :
    opBuildRequest P c d p = .error .contractViolation := if_pos (overCapacity_eq_true_iff.2 h)

/-! ### What is answered fits the capacity (R31) -/

theorem opEncode_out_length_le {src : List Byte} (h : opEncode P src = .ok r) : r.out.length ≤ P.cap := by
  obtain ⟨hlen, rfl⟩ := opEncode_eq_ok_iff.1 h
  rwa [length_encodeBytes]

theorem opDecode_out_length_le {n : Byte} {p : List Byte} (h : opDecode P n p = .ok r) :
    r.out.length ≤ P.cap := by
  obtain ⟨hlen, out, hout, rfl⟩ := opDecode_eq_ok_iff.1 h
  obtain ⟨hplen, -, -, rfl⟩ := (decodeBytes_ok_iff ..).1 hout
  rw [plen] at hplen
  simp only [List.length_map, List.length_range]
  omega

theorem opBuild_out_length_le {m : Message} (h : opBuild P m = .ok r) : r.out.length ≤ P.cap := by
  obtain ⟨hlen, -, rfl⟩ := opBuild_eq_ok_iff.1 h
  rwa [length_buildFrame]

theorem length_payload_le {m : Message} (h : (buildFrame m).length ≤ P.cap) : m.reply.out.length ≤ P.cap := by
  rw [length_buildFrame] at h
  exact Nat.le_of_add_right_le h

theorem opParse_out_length_le {f : List Byte} (h : opParse P f = .ok r) : r.out.length ≤ P.cap := by
  obtain ⟨hlen, m, rfl, -, rfl⟩ := opParse_eq_ok_iff.1 h
  exact length_payload_le hlen

theorem opParseResponse_out_length_le {f : List Byte} (h : opParseResponse P f = .ok r) :
    r.out.length ≤ P.cap := by
  obtain ⟨hlen, m, rfl, -, -, rfl⟩ := opParseResponse_eq_ok_iff.1 h
  exact length_payload_le hlen

/-- A request has at most 20 payload bytes (R62), so its frame fits from 26 on. -/
theorem opBuildRequest_out_length_le (hcap : 26 ≤ P.cap) {c d : Byte} {p : List Byte}
    (h : opBuildRequest P c d p = .ok r) : r.out.length ≤ P.cap := by
  obtain ⟨-, -, hlen, -, rfl⟩ := opBuildRequest_eq_ok_iff.1 h
  have hle := requestLength_le c
  simp only [length_buildFrame]
  omega

end OkAnswers

/-! ### Legality on the wire -/

/-- A frame is legal exactly when every byte between its delimiters has bit 7 clear (R227). -/
theorem wireLegal_buildFrame_iff (m : Message) : wireLegal (buildFrame m) ↔
    ∀ b ∈ [m.manufacturerId, m.modelId, m.deviceId, m.command] ++ m.payload, b.getLsbD 7 = false := by
  have hframe : buildFrame m =
      0xF0 :: ([m.manufacturerId, m.modelId, m.deviceId, m.command] ++ m.payload ++ [0xF7]) := rfl
  constructor
  · rintro ⟨body, hf, hbody⟩
    have hcancel := List.append_cancel_right (List.cons.inj (hframe.symm.trans hf)).2
    rwa [hcancel]
  · exact fun h => ⟨_, hframe, h⟩

theorem getLsbD_of_mem_commandBytes {c : Byte} (hc : c ∈ commandBytes) : c.getLsbD 7 = false := by
  revert c; decide

/-! ### The answer of an operation and the answer of a received frame -/

/-- What an answer with an `OK` response says of the operation. -/
theorem answer_eq_okResponse_iff {s : State} {x : Except Err Reply} (r : Reply) :
    s.answer x = .next (s.answered s.grid (okResponse r.r0 r.r1 r.r2 r.r3 r.out)) ↔ x = .ok r := by
  refine ⟨fun h => ?_, fun h => h ▸ answer_ok s r⟩
  obtain ⟨r', rfl, h'⟩ | ⟨e, rfl, h'⟩ := answer_cases s x
  · have hr := (answered_inj.1 (next_inj.1 (h'.symm.trans h))).2
    obtain ⟨r0, r1, r2, r3, out⟩ := r'
    obtain ⟨r0', r1', r2', r3', out'⟩ := r
    simpa [okResponse] using hr
  · have hr := (answered_inj.1 (next_inj.1 (h'.symm.trans h))).2
    exact absurd (congrArg Response.err hr) (by simp)

/-- A frame of one of the four commands, within capacity, is answered with its fields (R174). -/
theorem receiveFrame_ok {c : Byte} {p : List Byte} (hc : c ∈ commandBytes) (hlen : p.length ≤ 20)
    (hsafe : sevenBitSafe p = true) (m o d : Byte) (s : State) :
    receiveFrame ⟨m, o, d, c, p⟩ s = .next (s.answered s.grid (okResponse m o d c p)) := by
  have hcap : (buildFrame ⟨m, o, d, c, p⟩).length ≤ Config.params.cap :=
    (length_buildFrame _).trans_le (Nat.add_le_add_right hlen 6)
  exact (answer_eq_okResponse_iff ⟨m, o, d, c, p⟩).2 (opParseResponse_eq_ok_iff.2 ⟨hcap, _, rfl, hsafe, hc, rfl⟩)

/-! ### The obligations -/

/-- Settles O28: both sides say that `f` is the frame of the fields, that it fits and that the payload is 7-bit-safe. -/
theorem buildAndParseAreInverse : Obligations.BuildAndParseAreInverse := by
  intro a b c d p f s
  have hbuild : opBuild Config.params ⟨a, b, c, d, p⟩ = .ok { out := f } ↔
      opParse Config.params f = .ok ⟨a, b, c, d, p⟩ := by
    rw [opBuild_eq_ok_iff, opParse_eq_ok_iff]
    constructor
    · rintro ⟨hlen, hsafe, hf⟩
      cases hf
      exact ⟨by rwa [length_buildFrame], _, rfl, hsafe, rfl⟩
    · rintro ⟨hlen, m, rfl, hsafe, hr⟩
      cases hr
      exact ⟨by rwa [length_buildFrame] at hlen, hsafe, rfl⟩
  exact (answer_eq_ok_iff.trans hbuild).trans (answer_eq_okResponse_iff ⟨a, b, c, d, p⟩).symm

/-- Settles O36, row by row: each is a received frame of one of the four commands. -/
theorem protocolFramesAreParsedNotExecuted : Obligations.ProtocolFramesAreParsedNotExecuted := by
  intro m o d p x s
  have hsafe := sevenBitSafe_map_septetByte p
  refine ⟨receiveFrame_ok (c := 0x01) (p := []) (by decide) (by decide) rfl m o d s,
    receiveFrame_ok (c := 0x02) (p := []) (by decide) (by decide) rfl m o d s,
    receiveFrame_ok (by decide) (by simp) (sevenBitSafe_map_septetByte [x]) m o d s, fun hp => ?_⟩
  have hlen : (p.map septetByte).length ≤ 20 := by rw [List.length_map, hp]
  exact ⟨receiveFrame_ok (by decide) hlen hsafe m o d s, receiveFrame_ok (by decide) hlen hsafe m o d s⟩

/-- Settles O37: `F_PARSE` of the frame, which fits the capacity exactly up to 20 payload bytes. -/
theorem genericFramesAreParsed : Obligations.GenericFramesAreParsed := by
  intro m o d c p s
  have hlength : (buildFrame ⟨m, o, d, c, p.map septetByte⟩).length = p.length + 6 := by simp
  refine ⟨fun hp => ?_, fun hp => ?_⟩
  · have hcap : (buildFrame ⟨m, o, d, c, p.map septetByte⟩).length ≤ Config.params.cap :=
      hlength.trans_le (Nat.add_le_add_right hp 6)
    exact (answer_eq_okResponse_iff ⟨m, o, d, c, p.map septetByte⟩).2
      (opParse_eq_ok_iff.2 ⟨hcap, _, rfl, sevenBitSafe_map_septetByte p, rfl⟩)
  · have hcap : Config.params.cap < (buildFrame ⟨m, o, d, c, p.map septetByte⟩).length :=
      (Nat.add_le_add_right hp 6).trans hlength.ge
    exact answer_eq_error_iff.2 (opParse_of_cap_lt hcap)

/-- Settles O35: `DECODE_TABLE` undoes `encode` of the masks, their 20 bytes are a payload of `WRITE_CONFIG`, and a built
request is a frame that `PARSE_RESPONSE` accepts. -/
theorem sendAndReceivePathsRestore : Obligations.SendAndReceivePathsRestore := by
  refine ⟨fun s => ⟨encodeBytes (toMasks s.grid), exec_eq .encodeTable s, fun t => ?_, fun d t => ?_⟩,
    fun c d p f s t h => ?_⟩
  · have hpacket : isPacket (encodeBytes (toMasks s.grid)) 17 := by
      simpa using isPacket_encodeBytes (toMasks s.grid)
    have hmasks : (List.range 17).map (sourceByte (encodeBytes (toMasks s.grid))) = toMasks s.grid := by
      simpa using map_sourceByte_encodeBytes (toMasks s.grid)
    obtain ⟨-, -, hok⟩ := opDecodeTable_spec (encodeBytes (toMasks s.grid))
    rw [hmasks, fromMasks_toMasks] at hok
    exact congrArg t.commit (hok hpacket)
  · have hlen : (encodeBytes (toMasks s.grid)).length = 20 := by rw [length_encodeBytes, length_toMasks]; rfl
    have hcap : (encodeBytes (toMasks s.grid)).length ≤ Config.params.cap := hlen.trans_le (by decide)
    exact ⟨_, answer_eq_ok_iff.2 (opBuildRequest_eq_ok_iff.2
      ⟨hcap, by decide, hlen, sevenBitSafe_encodeBytes _, rfl⟩)⟩
  · obtain ⟨-, hc, hlen, hsafe, hf⟩ := opBuildRequest_eq_ok_iff.1 (answer_eq_ok_iff.1 h)
    cases hf
    exact receiveFrame_ok hc (hlen.trans_le (requestLength_le c)) hsafe _ _ d t

/-- Settles O56, operation by operation: what is over the capacity, and what is answered. -/
theorem capacityBoundsEveryBuffer : Obligations.CapacityBoundsEveryBuffer := by
  intro P hcap
  refine ⟨opEncode_eq_ite, fun n _ => opDecode_of_cap_lt n, fun m hm => ?_, fun _ => opBuild_of_cap_lt,
    fun _ => opParse_of_cap_lt, fun _ => opDecodeTable_of_cap_lt, fun c d _ => opBuildRequest_of_cap_lt c d,
    fun _ => opParseResponse_of_cap_lt, fun r hr => ?_⟩
  · obtain ⟨-, hbad⟩ := opFromMasks_spec m
    exact hbad (by omega)
  · obtain ⟨_, h⟩ | ⟨_, _, h⟩ | ⟨_, h⟩ | ⟨_, h⟩ | ⟨_, _, _, h⟩ | ⟨_, h⟩ := hr
    · exact opEncode_out_length_le h
    · exact opDecode_out_length_le h
    · exact opBuild_out_length_le h
    · exact opParse_out_length_le h
    · exact opBuildRequest_out_length_le hcap h
    · exact opParseResponse_out_length_le h

/-- Settles O57: between the delimiters stand the identifiers, a command of the codeset and a 7-bit-safe payload. -/
theorem wireLegalityIsTheHostsDuty : Obligations.WireLegalityIsTheHostsDuty := by
  intro P c d p r h
  obtain ⟨-, hc, -, hsafe, rfl⟩ := opBuildRequest_eq_ok_iff.1 h
  have hbytes : ∀ b ∈ c :: p, b.getLsbD 7 = false :=
    List.forall_mem_cons.2 ⟨getLsbD_of_mem_commandBytes hc, (sevenBitSafe_iff p).1 hsafe⟩
  rw [wireLegal_buildFrame_iff]
  simp only [List.cons_append, List.nil_append, List.forall_mem_cons (a := P.mfgId),
    List.forall_mem_cons (a := P.modelId), List.forall_mem_cons (a := d), and_iff_left hbytes]

end Sys2Proof
end

section
/-!
PROOFS. The codec's round trip (R97) and corner cases (R96), the carry byte and the data byte handed over (R65, R66),
and the routing table's row, mask and laws (R112, R113, R116).
-/
namespace Sys2Proof
open Sys2Proof.Machine

/-! ### Lengths that are no packet's -/

/-- A packed length is never 1 modulo 8, and is over 26 from 23 source bytes on (R96). -/
theorem not_isPacket_of_corner {p : List Byte} {n : Nat} (hlen : p.length ≤ 26) (h : p.length % 8 = 1 ∨ 23 ≤ n) :
    ¬ isPacket p n := by
  rintro ⟨hp, -⟩
  omega

/-! ### A packed byte handed over -/

section PackedByte
variable {n : Byte} {before after : List Byte} {x : Septet}

/-- What `DECODE` answers to a packet within capacity, whichever of its bytes is singled out. -/
theorem answer_opDecode_packet {p : List Byte} (hlen : p.length ≤ 26) (s : State) :
    (isPacket p n.toNat → s.answer (opDecode Config.params n p) =
      .next (s.answered s.grid (okResponse 0 0 0 0 ((List.range n.toNat).map (sourceByte p))))) ∧
    (¬ isPacket p n.toNat → s.answer (opDecode Config.params n p) =
      .next (s.answered s.grid (errorResponse .malformedPacket))) := by
  obtain ⟨-, hbad, hok⟩ := opDecode_spec n p
  exact ⟨fun hp => answer_eq_ok_iff.2 (hok hlen hp), fun hp => answer_eq_error_iff.2 (hbad hlen hp)⟩

theorem length_packet (h : before.length + 1 + after.length ≤ 26) :
    (before ++ septetByte x :: after).length ≤ 26 := by
  rw [List.length_append, List.length_cons]
  omega

theorem getD_packet_before_length : (before ++ septetByte x :: after).getD before.length 0 = septetByte x := by
  simp [List.getD_eq_getElem?_getD]

/-- Bit 7 of the source bytes of a group is read from the group's carry byte (R65). -/
theorem getLsbD_sourceByte_of_carryByte (hcarry : before.length % 8 = 0) {k : Nat} (hk : k < 7) :
    (sourceByte (before ++ septetByte x :: after) (7 * (before.length / 8) + k)).getLsbD 7 = x.getLsbD (6 - k) := by
  have hidx : 8 * ((7 * (before.length / 8) + k) / 7) = before.length := by omega
  have hslot : (7 * (before.length / 8) + k) % 7 = k := by omega
  rw [getLsbD_sourceByte, if_pos rfl, hidx, hslot, getD_packet_before_length, getLsbD_septetByte, carrySlot]

/-- Bits 6 to 0 of a source byte are read from its data byte (R66). -/
theorem getLsbD_sourceByte_of_dataByte (hdata : before.length % 8 ≠ 0) {j : Nat} (hj : j < 7) :
    (sourceByte (before ++ septetByte x :: after)
      (7 * (before.length / 8) + (before.length % 8 - 1))).getLsbD j = x.getLsbD j := by
  have hidx : 8 * ((7 * (before.length / 8) + (before.length % 8 - 1)) / 7) + 1 +
      (7 * (before.length / 8) + (before.length % 8 - 1)) % 7 = before.length := by omega
  rw [getLsbD_sourceByte, if_neg hj.ne, hidx, getD_packet_before_length, getLsbD_septetByte, decide_eq_true hj,
    Bool.true_and]

/-- The source byte of a data byte is one of the packet's `n` (R44). -/
theorem sourceIndex_lt {m : Nat} (h : isPacket (before ++ septetByte x :: after) m) :
    7 * (before.length / 8) + (before.length % 8 - 1) < m := by
  obtain ⟨hlen, -⟩ := h
  rw [List.length_append, List.length_cons] at hlen
  omega

end PackedByte

/-! ### The obligations -/

/-- Settles O12, by the loop's invariant. -/
theorem encodeByPositionsIsTheLoop : Obligations.EncodeByPositionsIsTheLoop :=
  fun src => (encodeLoop_eq_encodeBytes src).symm

/-- Settles O16: neither corner is a packet for `n`. -/
theorem decodeCornersAreMalformed : Obligations.DecodeCornersAreMalformed := by
  intro n p s hlen h
  obtain ⟨-, hbad⟩ := answer_opDecode_packet (n := n) hlen s
  exact hbad (not_isPacket_of_corner hlen h)

/-- Settles O17: an encoded packet is canonical, and its source bytes are the source. -/
theorem decodeOfEncodeIsTheSource : Obligations.DecodeOfEncodeIsTheSource := decodeBytes_encodeBytes

/-- Settles O38: the carry byte's slots are the source bytes' bits 7. -/
theorem carryByteGivesTheHighBits : Obligations.CarryByteGivesTheHighBits := by
  intro n before slots after s hcarry hlen
  obtain ⟨hok, hbad⟩ := answer_opDecode_packet (n := n) (length_packet (x := slots) hlen) s
  refine ⟨fun hp => ⟨_, hok hp, by simp, fun k hk hn => ?_⟩, hbad⟩
  rw [getD_map_range _ hn]
  exact getLsbD_sourceByte_of_carryByte hcarry hk

/-- Settles O39: the data byte's seven bits are its source byte's. -/
theorem dataByteGivesTheLowBits : Obligations.DataByteGivesTheLowBits := by
  intro n before low after s hdata hlen
  obtain ⟨hok, hbad⟩ := answer_opDecode_packet (n := n) (length_packet (x := low) hlen) s
  refine ⟨fun hp => ⟨_, hok hp, by simp, fun j hj => ?_⟩, hbad⟩
  rw [getD_map_range _ (sourceIndex_lt hp)]
  exact getLsbD_sourceByte_of_dataByte hdata hj

/-- Settles O21, by what `T_SET_ROW` does with an output in range and out of range. -/
theorem setRowWritesOneOutput : Obligations.SetRowWritesOneOutput := by
  intro a v s
  obtain ⟨hok, hbad⟩ := opSetRow_spec a v s.grid
  refine ⟨fun ha => ⟨s.grid.setRow ⟨_, ha⟩ v, congrArg s.commit (hok ha), fun o d => ?_⟩,
    fun h => congrArg s.commit (hbad h)⟩
  simp only [cell_setRow, Fin.ext_iff]

/-- Settles O22: the mask's bits are the cells of its destination. -/
theorem maskReadsOneDestination : Obligations.MaskReadsOneDestination := by
  intro b s
  obtain ⟨hok, hbad⟩ := opMask_spec b s.grid
  refine ⟨fun hb => ⟨channelMask s.grid ⟨_, hb⟩, congrArg s.answer (hok hb), fun o d hd => ?_⟩,
    fun h => congrArg s.answer (hbad h)⟩
  obtain rfl : d = ⟨b.toNat, hb⟩ := Fin.ext hd
  exact getLsbD_channelMask s.grid _ o

/-- Settles O25: the grid's masks rebuild it, and 17 masks are those of the grid they make. -/
theorem masksAndGridCarryTheSameBits : Obligations.MasksAndGridCarryTheSameBits := by
  refine ⟨fun s => ⟨toMasks s.grid, exec_eq .tToMasks s, fun t => ?_⟩, fun m s hm => ?_⟩
  · obtain ⟨hok, -⟩ := opFromMasks_spec (toMasks s.grid)
    rw [fromMasks_toMasks] at hok
    exact congrArg t.commit (hok (length_toMasks s.grid))
  · obtain ⟨hok, -⟩ := opFromMasks_spec m
    refine ⟨fromMasks m, congrArg s.commit (hok hm), fun t ht => ?_⟩
    have hmasks : toMasks t.grid = m := by rw [ht, toMasks_fromMasks hm]
    rw [← ht, ← hmasks]
    exact exec_eq .tToMasks t

end Sys2Proof
end

section
/-!
PROOFS. The rules of the whole machine: the record of the run (R31, R197, U3), the causes of `ContractViolation` (R195),
the codes that do not depend on the grid (R198), and what a repeated transaction does (R46).
-/
namespace Sys2Proof
open Sys2Proof.Machine

/-! ### Every response is one a record may hold -/

theorem errorResponse_wellFormed (e : Err) : (errorResponse e).wellFormed = true := by
  simp [Response.wellFormed]

/-- An answer fits the record when the operation's result bytes fit the capacity. -/
theorem readResult_wellFormed {x : Except Err Reply} (g : Grid) (h : ∀ r, x = .ok r → r.out.length ≤ 26) :
    (readResult g x).2.wellFormed = true := by
  cases x with
  | ok r => exact decide_eq_true (h r rfl)
  | error e => exact errorResponse_wellFormed e

theorem writeResult_wellFormed (g : Grid) (x : Except Err Grid) : (writeResult g x).2.wellFormed = true := by
  cases x with
  | ok g' => rfl
  | error e => exact errorResponse_wellFormed e

theorem opMask_out {d : Byte} {g : Grid} {r : Reply} (h : opMask d g = .ok r) : r.out = [] := by
  unfold opMask at h
  split at h
  · cases h; rfl
  · cases h

theorem opCheck_out {P : Params} {c len : Byte} {dir : Direction} {r : Reply} (h : opCheck P c len dir = .ok r) :
    r.out = [] := by
  unfold opCheck at h
  cases hc : checkCommand P c len.toNat dir <;> rw [hc] at h <;> cases h
  rfl

/-- Every instruction's response is one a record may hold (R31, R197). -/
theorem result_wellFormed (i : Instr) (g : Grid) : (result i g).2.wellFormed = true := by
  cases i with
  | tClear | tSet | tSetRow | tFromMasks | decodeTable => exact writeResult_wellFormed g _
  | reserved0 => exact errorResponse_wellFormed _
  | encode => exact readResult_wellFormed g fun _ => opEncode_out_length_le
  | decode | packedCarryByte | packedDataByte => exact readResult_wellFormed g fun _ => opDecode_out_length_le
  | tMask => exact readResult_wellFormed g fun _ h => by simp [opMask_out h]
  | pCheck => exact readResult_wellFormed g fun _ h => by simp [opCheck_out h]
  | tToMasks => exact readResult_wellFormed g fun _ h => by cases h; simp
  | encodeTable => exact readResult_wellFormed g fun _ h => by cases h; simp [plen, ceil7]
  | fBuild => exact readResult_wellFormed g fun _ => opBuild_out_length_le
  | fParse | frameGeneric => exact readResult_wellFormed g fun _ => opParse_out_length_le
  | buildRequest => exact readResult_wellFormed g fun _ => opBuildRequest_out_length_le le_rfl
  | _ => exact readResult_wellFormed g fun _ => opParseResponse_out_length_le

/-! ### The invariant of the run's record -/

/-- An answer that a record may hold keeps the invariant. -/
theorem recordOk_answered {s : State} {r : Response} (g : Grid) (hs : s.recordOk = true)
    (hr : r.wellFormed = true) : (s.answered g r).recordOk = true := by
  simp only [State.recordOk, Bool.and_eq_true, beq_iff_eq] at hs
  obtain ⟨hall, hmark⟩ := hs
  have hall' : (s.responses ++ [r]).all Response.wellFormed = true := by simp [hall, hr]
  simp only [State.recordOk, answered_responses, answered_violated, hall', hmark, List.any_append, List.any_cons,
    List.any_nil, Bool.or_false, beq_self_eq_true, Bool.and_self]

/-! ### The causes of an error, and the grid it depends on -/

/-- Whether `T_MASK` succeeds is a matter of its index, not of the grid (R113). -/
theorem opMask_outcome (d : Byte) (g g' : Grid) :
    (opMask d g).map (fun _ => ()) = (opMask d g').map fun _ => () := by
  unfold opMask
  cases destinationIndex d <;> simp only [Except.map]

/-- The code of an answer shows no more than whether the operation succeeded, and with what error it did not. -/
theorem readResult_err_congr (g g' : Grid) {x y : Except Err Reply}
    (h : x.map (fun _ => ()) = y.map fun _ => ()) : (readResult g x).2.err = (readResult g' y).2.err := by
  cases x <;> cases y <;> cases h <;> rfl

/-- The code that an instruction answers does not depend on the grid: an operation that reads the grid tests an index at
most. -/
theorem result_err_eq (i : Instr) (g g' : Grid) : (result i g).2.err = (result i g').2.err := by
  cases hread : i.readsGrid with
  | false => rw [result_response_of_not_readsGrid hread g g']
  | true =>
    cases i with
    | tMask d => exact readResult_err_congr g g' (opMask_outcome d g g')
    | tToMasks | encodeTable => rfl
    | _ => cases hread

/-! ### A transaction repeated -/

theorem setCell_setCell (g : Grid) (o : Fin 8) (d : Fin 17) (v : Bool) :
    (g.setCell o d v).setCell o d v = g.setCell o d v :=
  grid_ext fun o' d' => by simp only [cell_setCell]; split <;> rfl

theorem setRow_setRow (g : Grid) (o : Fin 8) (v : Bool) : (g.setRow o v).setRow o v = g.setRow o v :=
  grid_ext fun o' d' => by simp only [cell_setRow]; split <;> rfl

theorem opSet_idem {o d : Byte} {v : Bool} {g g' : Grid} (h : opSet o d v g = .ok g') : opSet o d v g' = .ok g' := by
  unfold opSet at *
  split at h
  · cases h
    exact congrArg Except.ok (setCell_setCell ..)
  · cases h

theorem opSetRow_idem {o : Byte} {v : Bool} {g g' : Grid} (h : opSetRow o v g = .ok g') :
    opSetRow o v g' = .ok g' := by
  unfold opSetRow at *
  split at h
  · cases h
    exact congrArg Except.ok (setRow_setRow ..)
  · cases h

/-- A write that gives back a grid it has made has, on the grid it left, the result it had. -/
theorem writeResult_idem {f : Grid → Except Err Grid} (hf : ∀ {g g'}, f g = .ok g' → f g' = .ok g') (g : Grid) :
    writeResult (writeResult g (f g)).1 (f (writeResult g (f g)).1) = writeResult g (f g) := by
  cases h : f g with
  | ok g' => simp only [writeResult, hf h]
  | error e => simp only [writeResult, h]

/-- On the grid it left, an instruction has the result it had (R46): only a write leaves another grid. -/
theorem result_idem (i : Instr) (g : Grid) : result i (result i g).1 = result i g := by
  cases hwrite : i.writesGrid with
  | false => rw [result_grid_of_not_writesGrid hwrite g]
  | true =>
    cases i with
    | tSet o d v => exact writeResult_idem (f := opSet o d v) opSet_idem g
    | tSetRow o v => exact writeResult_idem (f := opSetRow o v) opSetRow_idem g
    | tClear => rfl
    | tFromMasks | decodeTable => exact writeResult_idem (f := fun _ => _) id g
    | _ => cases hwrite

/-! ### The obligations -/

/-- Settles O53, by what a step can do: idle, reset, or one more response that a record may hold. -/
theorem stepKeepsTheRecord : Obligations.StepKeepsTheRecord := by
  intro s t hs hstep
  obtain ⟨-, h⟩ | ⟨rest, -, h⟩ | ⟨p, rest, -, h⟩ := step_cases s
  · cases next_inj.1 (h.symm.trans hstep)
    exact hs
  · cases next_inj.1 (h.symm.trans hstep)
    exact hs
  · cases next_inj.1 (h.symm.trans hstep)
    exact recordOk_answered _ hs (result_wellFormed p.instr s.grid)

/-- Settles O54: nothing is answered and nothing is marked. -/
theorem resetRecordIsSound : Obligations.ResetRecordIsSound := rfl

/-- Settles O55, by what a step can do with the mark: keep it, or join the response's. -/
theorem violationMarkIsNeverCleared : Obligations.ViolationMarkIsNeverCleared := by
  intro s t hs hstep
  have ht : t.violated = true := by
    obtain ⟨-, h⟩ | ⟨rest, -, h⟩ | ⟨p, rest, -, h⟩ := step_cases s
    · cases next_inj.1 (h.symm.trans hstep)
      exact hs
    · cases next_inj.1 (h.symm.trans hstep)
      exact hs
    · cases next_inj.1 (h.symm.trans hstep)
      simp [hs]
  exact ⟨ht, by simp [State.successful, ht]⟩

/-- Settles O52: the step that takes the reset input writes the grid and the inputs alone. -/
theorem resetInputGivesNoResponse : Obligations.ResetInputGivesNoResponse := by
  intro s rest hin
  simp only [step, hin]
  rfl

/-- Settles O44, by the operands of each operation that are this error. -/
theorem contractViolationIsRaisedExactlyForItsCauses : Obligations.ContractViolationIsRaisedExactlyForItsCauses := by
  intro i s
  refine ⟨_, _, exec_eq i s, fun h => (result_error h).2, ?_⟩
  cases i with
  | encode src => simp [result, opEncode_eq_error_iff src]
  | decode n p => simp [result, opDecode_eq_error_iff n p]
  | tFromMasks m => simp [result, opFromMasks_eq_error_iff m]
  | fBuild m o d c p => simp [result, opBuild_eq_error_iff ⟨m, o, d, c, p⟩]
  | fParse f => simp [result, opParse_eq_error_iff f]
  | decodeTable p => simp [result, opDecodeTable_eq_error_iff p]
  | buildRequest c d p => simp [result, opBuildRequest_eq_error_iff c d p]
  | parseResponse f => simp [result, opParseResponse_eq_error_iff f]
  | packedCarryByte n before x after | packedDataByte n before x after =>
    simp [result, opDecode_eq_error_iff n, Nat.add_assoc, Nat.add_comm 1]
  | _ => simp [result]

/-- Settles O46: the code on the empty grid is the code on every grid. -/
theorem resultCodesDependOnTheRequestAlone : Obligations.ResultCodesDependOnTheRequestAlone :=
  fun i => ⟨(result i Grid.empty).2.err, fun s => ⟨_, _, exec_eq i s, result_err_eq i s.grid Grid.empty⟩⟩

/-- Settles O50: on the grid it left, an instruction has the result it had. -/
theorem repeatingATransactionChangesNothing : Obligations.RepeatingATransactionChangesNothing := by
  intro i s
  refine ⟨_, _, exec_eq i s, ?_⟩
  rw [exec_eq, answered_grid, result_idem]

end Sys2Proof
end
